-- ==== Sys2Proof/Word.lean ====
section
/-! DEFINITION. The word types of the cpu4bit CORE and the names of its registers: a nibble is 4 bits (`00_scope.md` R5,
R6), a storage unit 8 bits (`20_memory.md` R43), a register sub-field 2 bits (`30_encoding.md` R73). -/

namespace Sys2Proof

/-- A nibble: the memory word, the register width, the address width (`00_scope.md` R5, `40_nibble_unit.md` R100). -/
abbrev Word := BitVec 4

/-- A storage unit: two words of memory (`20_memory.md` R43). -/
abbrev Byte := BitVec 8

/-- One of the two halves of a register-pair operand word (`30_encoding.md` R73). -/
abbrev RegField := BitVec 2

/-- The register file (`10_state.md` R20). -/
inductive Reg where
  | a
  | b
deriving DecidableEq, Repr

/-- What a register sub-field can say (`30_encoding.md` R79, R81): one of the two registers, or one of the two values
of the sub-field that name no register (2 and 3 under the spec's register index map). -/
inductive RegOperand where
  | a
  | b
  | reservedLo
  | reservedHi
deriving DecidableEq, Repr

end Sys2Proof
end

