-- ==== Sys2Proof/Machine/Nibble.lean ====
section
/-! DEFINITION. The nibble unit (`40_nibble_unit.md`): construction, the two views, equality and the masked operators.
By the masking law (R115) each operator takes the unsigned values of its operands, computes on integers and masks. No
operator has a flag, a fault or state. The CPU uses `nibAdd`, `nibNot` and `nibNeg` only (R116). -/

namespace Sys2Proof.Machine

/-- `nib(n) = n mod 16` for any integer (R100). -/
def nib (n : Int) : Word := BitVec.ofInt 4 n

/-- The unsigned view, 0 to 15 (R101). -/
def uns (v : Word) : Nat := v.toNat

/-- The signed view, -8 to 7: bit 3 set means negative (R102). -/
def sgn (v : Word) : Int := if v.getLsbD 3 then (uns v : Int) - 16 else uns v

/-- Equality compares the raw patterns (R103). -/
def nibEq (a b : Word) : Bool := uns a == uns b

/-- `add(a, b)` (R104). -/
def nibAdd (a b : Word) : Word := nib ((uns a : Int) + uns b)

/-- `sub(a, b)` (R105). -/
def nibSub (a b : Word) : Word := nib ((uns a : Int) - uns b)

/-- `mul(a, b)` (R106). -/
def nibMul (a b : Word) : Word := nib ((uns a : Int) * uns b)

/-- `div(a, b)`, unsigned (R107).
DESIGN CHOICE for `b = 0` (log 11, the spec's decision D11: 15) and for the unsigned operands (log 12, D12), unsafe for
a claim about them; no instruction reaches this operator. -/
def nibDiv (a b : Word) : Word := if uns b = 0 then nib 15 else nib (uns a / uns b : Nat)

/-- `mod(a, b)`, unsigned (R108).
DESIGN CHOICE for `b = 0` (log 11, the spec's decision D11: the dividend) and for the unsigned operands (log 12, D12),
unsafe for a claim about them; no instruction reaches this operator. -/
def nibMod (a b : Word) : Word := if uns b = 0 then a else nib (uns a % uns b : Nat)

/-- `shl(a, s)`, the amount a number 0 to 15 (R109).
DESIGN CHOICE for the amount (log 12, D12), unsafe for a claim about it. -/
def nibShl (a s : Word) : Word := nib ((uns a <<< uns s : Nat))

/-- `shr(a, s)`, logical, the amount a number 0 to 15 (R110).
DESIGN CHOICE for logical and for the amount (log 12, D12), unsafe for a claim about them. -/
def nibShr (a s : Word) : Word := nib ((uns a >>> uns s : Nat))

/-- `and(a, b)` (R111). -/
def nibAnd (a b : Word) : Word := nib ((uns a &&& uns b : Nat))

/-- `or(a, b)` (R112). -/
def nibOr (a b : Word) : Word := nib ((uns a ||| uns b : Nat))

/-- `xor(a, b)` (R113). -/
def nibXor (a b : Word) : Word := nib ((uns a ^^^ uns b : Nat))

/-- `not(a) = nib(~uns(a))` (R114); on integers `~n` is `-n - 1`. -/
def nibNot (a : Word) : Word := nib (-(uns a : Int) - 1)

/-- `neg(b) = add(not(b), 1)` (R114). -/
def nibNeg (b : Word) : Word := nibAdd (nibNot b) 1

end Sys2Proof.Machine
end

