-- ==== Sys2Proof/Config.lean ====
section
/-! DEFINITION. The parameters of the hardware (`00_scope.md` R5). The two maps the spec asks a model to take as
configuration, `OPCODE_MAP` and `REG_INDEX_MAP` (`30_encoding.md` warning, `93_implementation_defined.md` U12), are the
fields of `EncodingMap`; the spec's own choice of them is `specEncoding` in Decode.lean. -/

namespace Sys2Proof

/-- `MEM_WORDS` (`00_scope.md` R5, `20_memory.md` R42). -/
def Config.memWords : Nat := 16

/-- `MEM_BYTES`: the number of storage units (`00_scope.md` R5, `20_memory.md` R43). -/
def Config.memUnits : Nat := 8

/-- What an opcode word can say (`30_encoding.md` R74): the 11 opcodes, and the five opcode words that match none of
them, one for each `unrecognised` row of `opcode_table.json`.
DESIGN CHOICE (log 25), safe: an injective map of the 11 mnemonics into the 16 opcode words leaves exactly five words;
naming those five as well makes the map a bijection and loses no injective map. -/
inductive Opcode where
  | halt | loadA | loadAI | loadB | storeA | mov | add | sub | jump | jumpZ | jumpNZ
  | unrecognisedB | unrecognisedC | unrecognisedD | unrecognisedE | unrecognisedF
deriving DecidableEq, Repr

/-- `OPCODE_MAP` and `REG_INDEX_MAP`, each in both directions (`00_scope.md` R5). -/
structure EncodingMap where
  /-- the number of an opcode -/
  code : Opcode → Word
  /-- what an opcode word says (the decode stage, `42_cpu_cycle.md` R153) -/
  opcode : Word → Opcode
  /-- the sub-field value of a register operand -/
  regCode : RegOperand → RegField
  /-- what a sub-field value says -/
  regOperand : RegField → RegOperand

/-- The map is a legal `OPCODE_MAP` and `REG_INDEX_MAP`: each opcode word and each sub-field value means one thing
(`30_encoding.md` R74 "each a distinct 4-bit value", `92_eei_decisions.md` D1, D2 "injective map"). -/
structure EncodingMap.Legal (m : EncodingMap) : Prop where
  opcode_code : ∀ o, m.opcode (m.code o) = o
  code_opcode : ∀ w, m.code (m.opcode w) = w
  regOperand_regCode : ∀ r, m.regOperand (m.regCode r) = r
  regCode_regOperand : ∀ f, m.regCode (m.regOperand f) = f

end Sys2Proof
end

