-- ==== Sys2Proof/Syntax.lean ====
section
/-! DEFINITION. The instructions: one constructor for each row of `opcode_table.json`, at the level of mnemonics
(`30_encoding.md` R74); no opcode number and no register index stands here. -/

namespace Sys2Proof

/-- The 11 instructions and the five unrecognised opcodes (`30_encoding.md` R74). `k` is the operand word of format W
(R72); the two register operands are the sub-fields `f1`, `f2` of format R in the order of the word (R73): Mov has its
source first and its destination second. -/
inductive Instr where
  | halt
  | loadA (k : Word)
  | loadAI (k : Word)
  | loadB (k : Word)
  | storeA (k : Word)
  | mov (src dest : RegOperand)
  | add (f1 f2 : RegOperand)
  | sub (f1 f2 : RegOperand)
  | jump (k : Word)
  | jumpZ (k : Word)
  | jumpNZ (k : Word)
  | unrecognisedB
  | unrecognisedC
  | unrecognisedD
  | unrecognisedE
  | unrecognisedF
deriving DecidableEq, Repr

end Sys2Proof
end

