-- ==== Sys2Proof/Machine/State.lean ====
section
/-! DEFINITION. The state of the machine, as `10_state.md` gives it (88 bits, R27), its reset values (R29) and the
reasons a step can stop: none. -/

namespace Sys2Proof.Machine

/-- The three flags the ALU owns (`10_state.md` R24): Zero, Negative, Overflow. -/
structure Flags where
  z : Bool
  n : Bool
  v : Bool
deriving DecidableEq, Repr

/-- The memory, held as the storage units of `20_memory.md` R43: pairs of a unit number and its byte. The canonical
form is `Memory.wf` in Machine/Memory.lean (log 17). -/
abbrev Memory := List Host.Cell

/-- The whole state (`10_state.md`, head of the file, R20 to R28). There is nothing else (R27): no mode bit, the machine
has one mode (`60_exceptions.md` R226; DESIGN CHOICE, log 27, the spec's decision D22, safe). -/
structure State where
  /-- register A, `x[0]` (R20) -/
  a : Word
  /-- register B, `x[1]` (R20) -/
  b : Word
  /-- the program counter (R21) -/
  pc : Word
  /-- the instruction register (R22): the opcode word most recently fetched -/
  is : Word
  /-- the ALU-result staging register (R23) -/
  res : Word
  /-- the halt flag (R26) -/
  halted : Bool
  /-- the flags (R24) -/
  flags : Flags
  /-- the memory (R25) -/
  mem : Memory
deriving DecidableEq, Repr

/-- The reasons for a fault: none. "There are no fatal/aborting error conditions anywhere in this core"
(`60_exceptions.md` R220): nothing raises a fault, so the type is empty (log 24). -/
inductive Fault where
deriving DecidableEq, Repr

/-- The reasons for giving an instruction no meaning. -/
inductive Refusal where
  /-- The instruction has no meaning yet. No arm of `exec` raises it: every row of the opcode table has its meaning.
  Safe: a refusal proves nothing. -/
  | notModelled (mnemonic : String)
deriving DecidableEq, Repr

/-- The state right after reset (`10_state.md` R29, `70_reset_and_hazards.md` R250, R251): memory zero, not halted,
`pc` 0; the zeros of A, B, `is`, `res` and the flags are the spec's own decision D6 (DESIGN CHOICE, log 6, unsafe). There is one kind of reset, which clears memory too (DESIGN CHOICE, log 28,
the spec's decision D18, safe). -/
def State.reset : State where
  a := 0
  b := 0
  pc := 0
  is := 0
  res := 0
  halted := false
  flags := { z := false, n := false, v := false }
  mem := []

end Sys2Proof.Machine
end

