-- ==== Sys2Proof/Machine/Flags.lean ====
section
/-! DEFINITION. The ALU (`41_alu_flags.md`): the ripple-carry adder, subtraction by negate and add, and the flag
generator. -/

namespace Sys2Proof.Machine

/-- The operation select of the ALU: `{Add, Sub}`; its encoding is invisible (R141). -/
inductive AluOp where
  | add
  | sub
deriving DecidableEq, Repr

/-- The carry into bit `i` of the adder (R131): `c[0] = 0`,
`c[i+1] = (a[i] & b2[i]) | (c[i] & (a[i] ^ b2[i]))`.
PRESUMED (log 21: the spec takes the full-adder equations from general knowledge), safe: no output reads a carry and
the sum is fixed by the source. -/
def carryInto (a b2 : Word) : Nat → Bool
  | 0 => false
  | i + 1 => (a.getLsbD i && b2.getLsbD i) || (carryInto a b2 i && (a.getLsbD i ^^ b2.getLsbD i))

/-- Bit `i` of the sum (R131): `r[i] = a[i] ^ b2[i] ^ c[i]`. -/
def sumBit (a b2 : Word) (i : Nat) : Bool := a.getLsbD i ^^ b2.getLsbD i ^^ carryInto a b2 i

/-- `RippleAdd(a, b2)`: the carry out of bit 3 is discarded (R131). -/
def rippleAdd (a b2 : Word) : Word :=
  BitVec.ofBool (sumBit a b2 3) ++ BitVec.ofBool (sumBit a b2 2) ++ BitVec.ofBool (sumBit a b2 1) ++
    BitVec.ofBool (sumBit a b2 0)

/-- The second operand of the addition: `b` for Add (R132), `neg(b) = ~b + 1` for Sub (R133). -/
def secondAddend : AluOp → Word → Word
  | .add, b => b
  | .sub, b => nibNeg b

/-- The result (R130). -/
def aluResult (op : AluOp) (a b : Word) : Word := rippleAdd a (secondAddend op b)

/-- Zero: the result equals 0 (R135). -/
def zeroFlag (r : Word) : Bool := r == 0

/-- Negative: bit 3 of the result (R137). -/
def negativeFlag (r : Word) : Bool := r.getLsbD 3

/-- Overflow: the operands of the addition have the same sign bit and the result's differs (R136).
DESIGN CHOICE for Sub (log 14, the spec's decision D14 and conflict C5: the operands are `a` and `neg(b)`), unsafe for a
claim about V after a Sub; no instruction reads V. -/
def overflowFlag (a b2 r : Word) : Bool :=
  (a.getLsbD 3 == b2.getLsbD 3) && (r.getLsbD 3 != a.getLsbD 3)

/-- The flags of an operation, from this operation's values alone: cleared, then selectively set (R134). -/
def aluFlags (op : AluOp) (a b : Word) : Flags where
  z := zeroFlag (aluResult op a b)
  n := negativeFlag (aluResult op a b)
  v := overflowFlag a (secondAddend op b) (aluResult op a b)

/-- `AluCompute(a, b, op)` (R130): writes `res` (R139) and the three flags, and nothing else.
DESIGN CHOICE for what writes `res` (log 9, the spec's decision D9: this operation alone), safe: nothing reads `res` but
the copy to A in the same cycle. -/
def State.aluCompute (s : State) (op : AluOp) (a b : Word) : State :=
  { s with res := aluResult op a b, flags := aluFlags op a b }

/-- The ALU called with any operation select, `none` standing for a code that is neither Add nor Sub: then `res` and the
flags keep their values (R138).
DESIGN CHOICE for the flags of an unknown select (log 13, the spec's decision D13 and conflict C4), safe: the CPU issues
only Add and Sub (R141), so no cycle reaches it. -/
def State.aluRequest (s : State) (select : Option AluOp) (a b : Word) : State :=
  match select with
  | some op => s.aluCompute op a b
  | none => s

end Sys2Proof.Machine
end

