-- ==== Sys2Proof/WellFormed.lean ====
section
/-! DEFINITION. The constraints of `opcode_table.json`: the sub-fields of Mov, Add and Sub must name A or B, the other
two values are reserved (`30_encoding.md` R79, R81). An ill-formed instruction still decodes and runs (as the two-word
no-operation of R81): this predicate is about programs that keep clear of reserved encodings, it is no condition of
the machine. -/

namespace Sys2Proof

/-- The sub-field names a register (`30_encoding.md` R79). -/
def RegOperand.named : RegOperand → Bool
  | .a => true
  | .b => true
  | .reservedLo => false
  | .reservedHi => false

/-- The instruction holds no reserved register index (`opcode_table.json`, "constraints"). -/
def Instr.wellFormed : Instr → Bool
  | .mov src dest => src.named && dest.named
  | .add f1 f2 => f1.named && f2.named
  | .sub f1 f2 => f1.named && f2.named
  | .halt => true
  | .loadA _ => true
  | .loadAI _ => true
  | .loadB _ => true
  | .storeA _ => true
  | .jump _ => true
  | .jumpZ _ => true
  | .jumpNZ _ => true
  | .unrecognisedB => true
  | .unrecognisedC => true
  | .unrecognisedD => true
  | .unrecognisedE => true
  | .unrecognisedF => true

end Sys2Proof
end

