-- ==== Sys2Proof/Decode.lean ====
section
/-! DEFINITION. Decoding and encoding (`30_encoding.md`). Both are written over an encoding map (`00_scope.md` R5:
`OPCODE_MAP`, `REG_INDEX_MAP`); `specEncoding` is the spec's own choice of the two maps and `decode`, `encode` use it. -/

namespace Sys2Proof

/-! ## The spec's maps -/

/-- The opcode numbers of `30_encoding.md` R74.
DESIGN CHOICE (log 1, the spec's decision D1: the numbers are not in the source), unsafe for a claim about a program
image: the original's numbers may differ. -/
def specOpcodeNumber : Opcode → Word
  | .halt => 0
  | .loadA => 1
  | .loadAI => 2
  | .loadB => 3
  | .storeA => 4
  | .mov => 5
  | .add => 6
  | .sub => 7
  | .jump => 8
  | .jumpZ => 9
  | .jumpNZ => 10
  | .unrecognisedB => 11
  | .unrecognisedC => 12
  | .unrecognisedD => 13
  | .unrecognisedE => 14
  | .unrecognisedF => 15

/-- The decode stage under R74: all four bits of the word are compared (`42_cpu_cycle.md` R153). -/
def specOpcodeOf (w : Word) : Opcode :=
  match w.toNat with
  | 0 => .halt
  | 1 => .loadA
  | 2 => .loadAI
  | 3 => .loadB
  | 4 => .storeA
  | 5 => .mov
  | 6 => .add
  | 7 => .sub
  | 8 => .jump
  | 9 => .jumpZ
  | 10 => .jumpNZ
  | 11 => .unrecognisedB
  | 12 => .unrecognisedC
  | 13 => .unrecognisedD
  | 14 => .unrecognisedE
  | _ => .unrecognisedF

/-- The register index values of `30_encoding.md` R79.
DESIGN CHOICE (log 2, the spec's decision D2: not in the source), unsafe for a claim about a program image. -/
def specRegIndex : RegOperand → RegField
  | .a => 0
  | .b => 1
  | .reservedLo => 2
  | .reservedHi => 3

/-- What a sub-field value says under R79. -/
def specRegOf (f : RegField) : RegOperand :=
  match f.toNat with
  | 0 => .a
  | 1 => .b
  | 2 => .reservedLo
  | _ => .reservedHi

/-- The encoding map the machine runs with (`30_encoding.md` R74, R79). -/
def specEncoding : EncodingMap where
  code := specOpcodeNumber
  opcode := specOpcodeOf
  regCode := specRegIndex
  regOperand := specRegOf

/-! ## Operand words -/

/-- `unpack(w) = (w[3:2], w[1:0])` (`30_encoding.md` R77). -/
def unpackFields (w : Word) : RegField × RegField :=
  (w.extractLsb' 2 2, w.extractLsb' 0 2)

/-- `pack(f1, f2) = { f1, f2 }` (`30_encoding.md` R77). -/
def packFields (f1 f2 : RegField) : Word :=
  f1 ++ f2

/-- The opcode takes an operand word (`30_encoding.md` R75): every opcode but Halt and the unrecognised ones.
DESIGN CHOICE for the unrecognised ones (log 5, the spec's decision D5), unsafe. -/
def Opcode.hasOperand : Opcode → Bool
  | .halt => false
  | .loadA => true
  | .loadAI => true
  | .loadB => true
  | .storeA => true
  | .mov => true
  | .add => true
  | .sub => true
  | .jump => true
  | .jumpZ => true
  | .jumpNZ => true
  | .unrecognisedB => false
  | .unrecognisedC => false
  | .unrecognisedD => false
  | .unrecognisedE => false
  | .unrecognisedF => false

/-! ## The decoder -/

/-- The instruction of an opcode and the operand word `k` after it (`30_encoding.md` R72, R73, R76 to R78); an opcode
without an operand word does not look at `k`. -/
def instrOf (m : EncodingMap) (op : Opcode) (k : Word) : Instr :=
  match op with
  | .halt => .halt
  | .loadA => .loadA k
  | .loadAI => .loadAI k
  | .loadB => .loadB k
  | .storeA => .storeA k
  | .mov => .mov (m.regOperand (unpackFields k).1) (m.regOperand (unpackFields k).2)
  | .add => .add (m.regOperand (unpackFields k).1) (m.regOperand (unpackFields k).2)
  | .sub => .sub (m.regOperand (unpackFields k).1) (m.regOperand (unpackFields k).2)
  | .jump => .jump k
  | .jumpZ => .jumpZ k
  | .jumpNZ => .jumpNZ k
  | .unrecognisedB => .unrecognisedB
  | .unrecognisedC => .unrecognisedC
  | .unrecognisedD => .unrecognisedD
  | .unrecognisedE => .unrecognisedE
  | .unrecognisedF => .unrecognisedF

/-- Why a list of words holds no instruction. Only a list can be too short: every opcode word and every operand word
decodes (`30_encoding.md` R80, R81), and the machine's memory never runs out (`42_cpu_cycle.md` R160). -/
inductive DecodeError where
  | noOpcodeWord
  | noOperandWord
deriving DecidableEq, Repr

/-- What a list of words decodes to. -/
inductive Decoded where
  /-- the instruction, and the words after it -/
  | instr (i : Instr) (rest : List Word)
  /-- the list is too short -/
  | rejected (e : DecodeError)
deriving DecidableEq, Repr

/-- Decodes the instruction at the head of a list of words, under an encoding map (`30_encoding.md` R70, R75). -/
def decodeWith (m : EncodingMap) : List Word → Decoded
  | [] => .rejected .noOpcodeWord
  | w :: rest =>
    if (m.opcode w).hasOperand then
      match rest with
      | [] => .rejected .noOperandWord
      | k :: rest' => .instr (instrOf m (m.opcode w) k) rest'
    else .instr (instrOf m (m.opcode w) 0) rest

/-- The decoder of the machine. -/
def decode (ws : List Word) : Decoded := decodeWith specEncoding ws

/-! ## The encoder -/

/-- The opcode of an instruction. -/
def Instr.opcode : Instr → Opcode
  | .halt => .halt
  | .loadA _ => .loadA
  | .loadAI _ => .loadAI
  | .loadB _ => .loadB
  | .storeA _ => .storeA
  | .mov _ _ => .mov
  | .add _ _ => .add
  | .sub _ _ => .sub
  | .jump _ => .jump
  | .jumpZ _ => .jumpZ
  | .jumpNZ _ => .jumpNZ
  | .unrecognisedB => .unrecognisedB
  | .unrecognisedC => .unrecognisedC
  | .unrecognisedD => .unrecognisedD
  | .unrecognisedE => .unrecognisedE
  | .unrecognisedF => .unrecognisedF

/-- The operand words of an instruction, none or one (`30_encoding.md` R71 to R73, R77; the forms of R83). -/
def operandWords (m : EncodingMap) : Instr → List Word
  | .halt => []
  | .loadA k => [k]
  | .loadAI k => [k]
  | .loadB k => [k]
  | .storeA k => [k]
  | .mov src dest => [packFields (m.regCode src) (m.regCode dest)]
  | .add f1 f2 => [packFields (m.regCode f1) (m.regCode f2)]
  | .sub f1 f2 => [packFields (m.regCode f1) (m.regCode f2)]
  | .jump k => [k]
  | .jumpZ k => [k]
  | .jumpNZ k => [k]
  | .unrecognisedB => []
  | .unrecognisedC => []
  | .unrecognisedD => []
  | .unrecognisedE => []
  | .unrecognisedF => []

/-- The words of an instruction, the opcode word first (`30_encoding.md` R70). -/
def encodeWith (m : EncodingMap) (i : Instr) : List Word :=
  m.code i.opcode :: operandWords m i

/-- The encoder of the spec's maps. -/
def encode (i : Instr) : List Word := encodeWith specEncoding i

/-! ## The table's image of an instruction -/

/-- The two words of a word of `opcode_table.json` (`30_encoding.md` R84: word 0 in bits 7 to 4 of an 8-bit image, a
one-word row as 4 bits). A row of one word counted in whole bytes has its word in bits 3 to 0 and zeros above, and no
row of two words has word 0 equal to 0, so an image below 16 is the image of a one-word row.
DEDUCED (log 18), safe: a convention of the table's image; the machine never sees one. -/
def tableWords (nbits w : Nat) : Word × Word :=
  if nbits ≤ 4 ∨ w < 16 then (BitVec.ofNat 4 w, 0)
  else (BitVec.ofNat 4 (w / 16), BitVec.ofNat 4 w)

/-- The instruction the decoder reads from a word of `opcode_table.json` (`30_encoding.md` R84). -/
def decodeTableWord (nbits w : Nat) : Option Instr :=
  match decode [(tableWords nbits w).1, (tableWords nbits w).2] with
  | .instr i _ => some i
  | .rejected _ => none

end Sys2Proof
end

