-- ==== Sys2Proof/Machine/Memory.lean ====
section
/-! DEFINITION. The memory (`20_memory.md`): eight storage units of two words each (R43, R44), held as a list of
(unit number, byte) pairs in one canonical form, and the access primitives (R45, R46). -/

namespace Sys2Proof.Machine

/-- What an unlisted storage unit reads as: "After reset every `S[k]` is `0x00`" (R55). -/
def Memory.unlisted : Byte := 0x00

/-- The unit `S[k]`. -/
def Memory.readUnit (m : Memory) (k : Nat) : Byte :=
  match m with
  | [] => Memory.unlisted
  | c :: rest => if c.1 = k then c.2 else Memory.readUnit rest k

/-- Puts a cell into a list at its place in the rising order. -/
def Memory.insertCell (k : Nat) (u : Byte) (m : Memory) : Memory :=
  match m with
  | [] => [(k, u)]
  | c :: rest => if k < c.1 then (k, u) :: c :: rest else c :: Memory.insertCell k u rest

/-- `S[k] <- u`, in canonical form: a unit that holds what an unlisted unit reads as is not listed. -/
def Memory.writeUnit (m : Memory) (k : Nat) (u : Byte) : Memory :=
  let others := m.filter fun c => c.1 != k
  if u = Memory.unlisted then others else Memory.insertCell k u others

/-- The unit numbers rise strictly from `lo` on, every unit exists (R43: eight units), and no listed unit holds what an
unlisted unit reads as. -/
def Memory.wfFrom (lo : Nat) (m : Memory) : Bool :=
  match m with
  | [] => true
  | c :: rest =>
    decide (lo ≤ c.1) && decide (c.1 < Config.memUnits) && (c.2 != Memory.unlisted) && Memory.wfFrom (c.1 + 1) rest

/-- The canonical form (log 17). -/
def Memory.wf (m : Memory) : Bool := Memory.wfFrom 0 m

/-- The number of the unit that holds an address: `addr[3:1]` (R44).
DESIGN CHOICE (log 10, the spec's decision D10), unsafe for a claim about the storage bytes only. -/
def unitOf (addr : Word) : Nat := (addr.extractLsb' 1 3).toNat

/-- The word of a unit that an address names: even address high half, odd address low half (R43). -/
def wordOfUnit (addr : Word) (u : Byte) : Word :=
  if addr.getLsbD 0 then u.extractLsb' 0 4 else u.extractLsb' 4 4

/-- A unit with the word that an address names replaced, the other word kept (R46). -/
def unitWithWord (addr v : Word) (u : Byte) : Byte :=
  if addr.getLsbD 0 then (u.extractLsb' 4 4 ++ v : BitVec 8) else (v ++ u.extractLsb' 0 4 : BitVec 8)

/-- `MemRead(addr, 1)` (R45). -/
def Memory.readWord (m : Memory) (addr : Word) : Word :=
  wordOfUnit addr (m.readUnit (unitOf addr))

/-- `MemWrite(addr, 1, v)` (R46). -/
def Memory.writeWord (m : Memory) (addr v : Word) : Memory :=
  m.writeUnit (unitOf addr) (unitWithWord addr v (m.readUnit (unitOf addr)))

/-- The storage bytes `S[0]` to `S[7]` (R43): what a raw dump of the storage array shows. -/
def Memory.image (m : Memory) : List Byte := (List.range Config.memUnits).map m.readUnit

end Sys2Proof.Machine
end

