-- ==== Sys2Proof/Machine/Ops.lean ====
section
/-! DEFINITION. The named operations over registers and memory that every meaning uses, and the fetch stage
(`42_cpu_cycle.md` R152, R154). The machine has no exception to take and none to return from (`60_exceptions.md` R220,
R227, R228), so no operation for it stands here (log 24). -/

namespace Sys2Proof.Machine

/-- `x[i]` (`00_scope.md` R8, `10_state.md` R20). -/
def State.readReg (s : State) : Reg → Word
  | .a => s.a
  | .b => s.b

/-- `x[i] <- v` (`00_scope.md` R8, `10_state.md` R20). -/
def State.writeReg (s : State) (r : Reg) (v : Word) : State :=
  match r with
  | .a => { s with a := v }
  | .b => { s with b := v }

/-- `MemRead(addr, 1)` (`20_memory.md` R45). -/
def State.load (s : State) (addr : Word) : Word := s.mem.readWord addr

/-- `MemWrite(addr, 1, v)` (`20_memory.md` R46). -/
def State.store (s : State) (addr v : Word) : State := { s with mem := s.mem.writeWord addr v }

/-- `pc <- target` (`00_scope.md` R8). -/
def State.setPc (s : State) (target : Word) : State := { s with pc := target }

/-- `halted <- 1` (`10_state.md` R26). -/
def State.halt (s : State) : State := { s with halted := true }

/-- `Fetch()` without the word it returns: `pc <- (pc + 1) mod 16` (`42_cpu_cycle.md` R152, R160).
DESIGN CHOICE for the width and the wrap of `pc` (log 4, the spec's decision D4), unsafe for a claim about the stored
`pc` past address 15; the addresses fetched are the same under any width. -/
def State.advance (s : State) : State := s.setPc (nibAdd s.pc 1)

/-- The fetch stage: `is <- Fetch()` (`42_cpu_cycle.md` R150, R152). -/
def State.fetchOpcode (s : State) : State := { s.advance with is := s.load s.pc }

/-- The fetch of a whole instruction: the opcode word into `is`, the decode stage, then the operand word of a two-word
instruction, which is not written to `is` (`42_cpu_cycle.md` R152 to R154; `10_state.md` R22).
DESIGN CHOICE for `is` and the operand word (log 8, the spec's decision D8), safe: nothing reads `is` before the next
fetch writes it. -/
def State.fetchInstr (m : EncodingMap) (s : State) : Instr × State :=
  let s1 := s.fetchOpcode
  let op := m.opcode s1.is
  if op.hasOperand then (instrOf m op (s1.load s1.pc), s1.advance) else (instrOf m op 0, s1)

/-- The state with two words placed where the next instruction is fetched from, and running: what a program load does
for one instruction (`46_host_interface.md` R207; log 19). -/
def State.placeWords (s : State) (w0 w1 : Word) : State :=
  { (s.store s.pc w0).store (nibAdd s.pc 1) w1 with halted := false }

end Sys2Proof.Machine
end

