-- ==== Sys2Proof/Machine/Operands.lean ====
section
/-! DEFINITION. The operand forms. An address, an immediate and a target are the operand word as it stands
(`30_encoding.md` R76, R78); a register pair is two sub-fields, each of which may name no register (R77, R79, R81). -/

namespace Sys2Proof.Machine

/-- The register a sub-field names, if it names one (`30_encoding.md` R79). -/
def registerOf : RegOperand → Option Reg
  | .a => some .a
  | .b => some .b
  | .reservedLo => none
  | .reservedHi => none

/-- Runs an action on the two registers of a pair, or does nothing if either sub-field is reserved
(`42_cpu_cycle.md` R155, the tests `<= 1`; `30_encoding.md` R81).
DESIGN CHOICE for a reserved sub-field (log 3, the spec's decision D3: a two-word no-operation), unsafe for a program
that holds one. -/
def State.withRegPair (s : State) (f1 f2 : RegOperand) (act : Reg → Reg → State) : State :=
  match registerOf f1, registerOf f2 with
  | some r1, some r2 => act r1 r2
  | some _, none => s
  | none, some _ => s
  | none, none => s

end Sys2Proof.Machine
end

