-- ==== Sys2Proof/Machine/Arithmetic.lean ====
section
/-! DEFINITION. The execute actions of Add and Sub (`44_arithmetic.md`), on the state after the fetch of the whole
instruction (log 26). -/

namespace Sys2Proof.Machine

/-- What Add and Sub share: `AluCompute(x[f1], x[f2], op)`, then `x[0] <- res`; both source registers are read before A
is written (`44_arithmetic.md`, "Common to both"; `41_alu_flags.md` R139). -/
def State.aluToA (s : State) (op : AluOp) (r1 r2 : Reg) : State :=
  let t := s.aluCompute op (s.readReg r1) (s.readReg r2)
  t.writeReg .a t.res

/-- Add (R180). -/
def execAdd (f1 f2 : RegOperand) (s : State) : Host.Outcome State Fault Refusal :=
  .next (s.withRegPair f1 f2 fun r1 r2 => s.aluToA .add r1 r2)

/-- Sub: `f1` names the minuend, `f2` the subtrahend (R181). -/
def execSub (f1 f2 : RegOperand) (s : State) : Host.Outcome State Fault Refusal :=
  .next (s.withRegPair f1 f2 fun r1 r2 => s.aluToA .sub r1 r2)

end Sys2Proof.Machine
end

