-- ==== Sys2Proof/Machine/Control.lean ====
section
/-! DEFINITION. The execute actions of Jump, JumpZ, JumpNZ and Halt (`45_control.md`), on the state after the fetch of
the whole instruction (log 26). -/

namespace Sys2Proof.Machine

/-- Jump: `pc <- k`, after the operand fetch's increment (R190; `42_cpu_cycle.md` R158). -/
def execJump (k : Word) (s : State) : Host.Outcome State Fault Refusal :=
  .next (s.setPc k)

/-- JumpZ: `if Z == 1 then pc <- k` (R191). -/
def execJumpZ (k : Word) (s : State) : Host.Outcome State Fault Refusal :=
  .next (if s.flags.z then s.setPc k else s)

/-- JumpNZ: `if Z == 0 then pc <- k` (R192). -/
def execJumpNZ (k : Word) (s : State) : Host.Outcome State Fault Refusal :=
  .next (if s.flags.z then s else s.setPc k)

/-- Halt: `halted <- 1` (R193). -/
def execHalt (s : State) : Host.Outcome State Fault Refusal :=
  .next s.halt

end Sys2Proof.Machine
end

