-- ==== Sys2Proof/Machine/DataMovement.lean ====
section
/-! DEFINITION. The execute actions of LoadA, LoadAI, LoadB, StoreA and Mov (`43_data_movement.md`), on the state after
the fetch of the whole instruction (log 26). -/

namespace Sys2Proof.Machine

/-- LoadA: `x[0] <- MemRead(k, 1)` (R170). -/
def execLoadA (k : Word) (s : State) : Host.Outcome State Fault Refusal :=
  .next (s.writeReg .a (s.load k))

/-- LoadAI: `x[0] <- k` (R171). -/
def execLoadAI (k : Word) (s : State) : Host.Outcome State Fault Refusal :=
  .next (s.writeReg .a k)

/-- LoadB: `x[1] <- MemRead(k, 1)` (R172). -/
def execLoadB (k : Word) (s : State) : Host.Outcome State Fault Refusal :=
  .next (s.writeReg .b (s.load k))

/-- StoreA: `MemWrite(k, 1, x[0])` (R173). -/
def execStoreA (k : Word) (s : State) : Host.Outcome State Fault Refusal :=
  .next (s.store k (s.readReg .a))

/-- Mov: `x[d] <- x[s]`, source first, destination second (R174). -/
def execMov (src dest : RegOperand) (s : State) : Host.Outcome State Fault Refusal :=
  .next (s.withRegPair src dest fun r d => s.writeReg d (s.readReg r))

end Sys2Proof.Machine
end

