-- ==== Sys2Proof/Machine/Unrecognised.lean ====
section
/-! DEFINITION. The execute action of an opcode word that matches no instruction (`42_cpu_cycle.md` R156): nothing but a
diagnostic event (Machine/Diagnostics.lean).
DESIGN CHOICE (log 5, the spec's decision D5 and conflict C3: the fetch stage's writes of `is` and `pc` stand, no
operand word is consumed), unsafe for a program that holds such a word. -/

namespace Sys2Proof.Machine

/-- What the five rows share: the execute stage does nothing (R156). -/
def executeNothing (s : State) : Host.Outcome State Fault Refusal := .next s

/-- Opcode 0xB (R156). -/
def execUnrecognisedB (s : State) : Host.Outcome State Fault Refusal := executeNothing s

/-- Opcode 0xC (R156). -/
def execUnrecognisedC (s : State) : Host.Outcome State Fault Refusal := executeNothing s

/-- Opcode 0xD (R156). -/
def execUnrecognisedD (s : State) : Host.Outcome State Fault Refusal := executeNothing s

/-- Opcode 0xE (R156). -/
def execUnrecognisedE (s : State) : Host.Outcome State Fault Refusal := executeNothing s

/-- Opcode 0xF (R156). -/
def execUnrecognisedF (s : State) : Host.Outcome State Fault Refusal := executeNothing s

end Sys2Proof.Machine
end

