-- ==== Sys2Proof/Machine/Dispatch.lean ====
section
/-! DEFINITION. The execute stage's dispatch (`42_cpu_cycle.md` R155), one arm per constructor of Instr, on the state
after the fetch of the whole instruction. -/

namespace Sys2Proof.Machine

def exec (i : Instr) (s : State) : Host.Outcome State Fault Refusal :=
  match i with
  | .halt => Sys2Proof.Machine.execHalt s
  | .loadA k => Sys2Proof.Machine.execLoadA k s
  | .loadAI k => Sys2Proof.Machine.execLoadAI k s
  | .loadB k => Sys2Proof.Machine.execLoadB k s
  | .storeA k => Sys2Proof.Machine.execStoreA k s
  | .mov src dest => Sys2Proof.Machine.execMov src dest s
  | .add f1 f2 => Sys2Proof.Machine.execAdd f1 f2 s
  | .sub f1 f2 => Sys2Proof.Machine.execSub f1 f2 s
  | .jump k => Sys2Proof.Machine.execJump k s
  | .jumpZ k => Sys2Proof.Machine.execJumpZ k s
  | .jumpNZ k => Sys2Proof.Machine.execJumpNZ k s
  | .unrecognisedB => Sys2Proof.Machine.execUnrecognisedB s
  | .unrecognisedC => Sys2Proof.Machine.execUnrecognisedC s
  | .unrecognisedD => Sys2Proof.Machine.execUnrecognisedD s
  | .unrecognisedE => Sys2Proof.Machine.execUnrecognisedE s
  | .unrecognisedF => Sys2Proof.Machine.execUnrecognisedF s

end Sys2Proof.Machine
end

