-- ==== Sys2Proof/Machine/Cycle.lean ====
section
/-! DEFINITION. The cycle (`42_cpu_cycle.md` R150): the machine's one step, under an encoding map. -/

namespace Sys2Proof.Machine

/-- `Cycle()` (R150): nothing when halted (R151), otherwise the fetch of one whole instruction and its execute action.
DESIGN CHOICE for the halted state (log 7, the spec's decision D7), unsafe for a host that steps past a Halt.
DESIGN CHOICE for the unit of time (log 20, D20: one whole instruction a step), safe. -/
def cycleWith (m : EncodingMap) (s : State) : Host.Outcome State Fault Refusal :=
  if s.halted then .next s else exec (s.fetchInstr m).1 (s.fetchInstr m).2

end Sys2Proof.Machine
end

