-- ==== Sys2Proof/Machine/Step.lean ====
section
/-! DEFINITION. The step of the machine: one `Cycle` under the spec's encoding map (`42_cpu_cycle.md` R150), and the
placing of one instruction where the next step fetches. -/

namespace Sys2Proof.Machine

/-- One step is one `Cycle` (`42_cpu_cycle.md` R150, `46_host_interface.md` R201). -/
def step (s : State) : Host.Outcome State Fault Refusal := cycleWith specEncoding s

/-- The state with the instruction of a table word stored at `pc`, as the host's memory port would (`46_host_interface.md`
R207), and with `halted` clear, since a halted machine fetches nothing (log 19). -/
def State.withFetchWord (s : State) (nbits w : Nat) : State :=
  s.placeWords (tableWords nbits w).1 (tableWords nbits w).2

end Sys2Proof.Machine
end

