-- ==== Sys2Proof/Machine/Diagnostics.lean ====
section
/-! DEFINITION. The diagnostic channel (`46_host_interface.md` R210, `60_exceptions.md` R222 to R224): an output of the
block that no rule reads and that is no state (R223), so it is a function of the state and stands outside State
(log 22). The text of a report is out of scope (`00_scope.md` R4). -/

namespace Sys2Proof.Machine

/-- The diagnostic events (`60_exceptions.md` R223, R224). -/
inductive DiagEvent where
  /-- an unrecognised opcode (`42_cpu_cycle.md` R156) -/
  | unknownOpcode
  /-- a reserved register index (`30_encoding.md` R81) -/
  | reservedRegister
  /-- an unknown ALU operation (`41_alu_flags.md` R138); no cycle emits it -/
  | unknownAluOp
  /-- a memory component built with more than 16 words (`20_memory.md` R54); no cycle emits it -/
  | memoryOverProvisioned
deriving DecidableEq, Repr

/-- The event of a register pair: one if either sub-field is reserved (`42_cpu_cycle.md` R155). -/
def diagOfPair (f1 f2 : RegOperand) : Option DiagEvent :=
  if f1.named && f2.named then none else some .reservedRegister

/-- The event the execute stage of an instruction emits, at most one (`42_cpu_cycle.md` R155, `60_exceptions.md`
R229). -/
def diagOf : Instr → Option DiagEvent
  | .halt => none
  | .loadA _ => none
  | .loadAI _ => none
  | .loadB _ => none
  | .storeA _ => none
  | .mov src dest => diagOfPair src dest
  | .add f1 f2 => diagOfPair f1 f2
  | .sub f1 f2 => diagOfPair f1 f2
  | .jump _ => none
  | .jumpZ _ => none
  | .jumpNZ _ => none
  | .unrecognisedB => some .unknownOpcode
  | .unrecognisedC => some .unknownOpcode
  | .unrecognisedD => some .unknownOpcode
  | .unrecognisedE => some .unknownOpcode
  | .unrecognisedF => some .unknownOpcode

/-- The event the next cycle from a state emits; a halted machine decodes nothing (`42_cpu_cycle.md` R151). -/
def cycleDiag (m : EncodingMap) (s : State) : Option DiagEvent :=
  if s.halted then none else diagOf (s.fetchInstr m).1

/-- The event of an ALU call: only an unknown operation select (`none`) emits one (`41_alu_flags.md` R138). -/
def aluDiag {α : Type} (select : Option α) : Option DiagEvent :=
  match select with
  | some _ => none
  | none => some .unknownAluOp

end Sys2Proof.Machine
end

