-- ==== Sys2Proof/Machine/MemComponent.lean ====
section
/-! DEFINITION. The memory component taken alone, built with any requested word count (`20_memory.md` R54): an array of
storage units (R43). The CPU block builds it with 16 words (R42) and holds it as `State.mem`. -/

namespace Sys2Proof.Machine

/-- The storage array of a memory component (R43). -/
structure MemComponent where
  units : List Byte
deriving DecidableEq, Repr

/-- Construction with a requested word count: an odd count is rounded up to whole units, every word is zero, and a count
above 16 does not fail (R54, R55). -/
def MemComponent.construct (n : Nat) : MemComponent := ⟨List.replicate ((n + 1) / 2) Memory.unlisted⟩

/-- The event of a construction: one if the request exceeds 16 words (`60_exceptions.md` R224). -/
def MemComponent.constructDiag (n : Nat) : Option DiagEvent :=
  if n > Config.memWords then some .memoryOverProvisioned else none

/-- `Capacity()`: two words a unit (R43, R54). -/
def MemComponent.capacity (c : MemComponent) : Nat := 2 * c.units.length

/-- `Load(address)`; no meaning at an address the component does not have, which the source does not describe
(`91_not_in_source.md` N18, log 23, safe). -/
def MemComponent.load (c : MemComponent) (addr : Word) : Option Word :=
  (c.units[unitOf addr]?).map (wordOfUnit addr)

/-- `Store(value, address)`; no meaning at an address the component does not have (N18, log 23, safe). -/
def MemComponent.store (c : MemComponent) (v addr : Word) : Option MemComponent :=
  (c.units[unitOf addr]?).map fun u => ⟨c.units.set (unitOf addr) (unitWithWord addr v u)⟩

/-- The component that holds the CPU's memory: the eight storage bytes. -/
def MemComponent.ofMemory (m : Memory) : MemComponent := ⟨m.image⟩

end Sys2Proof.Machine
end

