-- ==== Sys2Proof/Machine/Pins.lean ====
section
/-! DEFINITION. The signal-level rendering of the block (`46_host_interface.md` R208), one request period a call.
DESIGN CHOICE (log 16, the spec's decisions D16 and D20; the order reset, cycle, port write when several are requested at
once is the model's), safe for the instruction rules, none of which depends on it. -/

namespace Sys2Proof.Machine

/-- The input signals (R208). -/
structure PinsIn where
  rst : Bool
  step : Bool
  mAddr : Word
  mWdata : Word
  mWe : Bool
deriving DecidableEq, Repr

/-- The output signals (R208); `pc`, `is` and `res` have none. -/
structure PinsOut where
  mRdata : Word
  regA : Word
  regB : Word
  flagZ : Bool
  flagN : Bool
  flagV : Bool
  halted : Bool
  diagUnknownOpcode : Bool
  diagReservedReg : Bool
deriving DecidableEq, Repr

/-- The state after one request period (R208): reset while `rst`, one cycle on `step`, a port write honoured only when no
cycle is in progress. -/
def pinsNext (p : PinsIn) (s : State) : Host.Outcome State Fault Refusal :=
  if p.rst then .next State.reset
  else if p.step then step s
  else if p.mWe then .next (s.store p.mAddr p.mWdata)
  else .next s

/-- The event of the request period: that of the cycle it performs, if it performs one. -/
def pinsDiag (p : PinsIn) (s : State) : Option DiagEvent :=
  if p.rst then none else if p.step then cycleDiag specEncoding s else none

/-- The outputs during one request period (R208). -/
def pinsOut (p : PinsIn) (s : State) : PinsOut where
  mRdata := s.load p.mAddr
  regA := s.a
  regB := s.b
  flagZ := s.flags.z
  flagN := s.flags.n
  flagV := s.flags.v
  halted := s.halted
  diagUnknownOpcode := pinsDiag p s == some .unknownOpcode
  diagReservedReg := pinsDiag p s == some .reservedRegister

end Sys2Proof.Machine
end

