-- ==== Sys2Proof/Machine/HostPort.lean ====
section
/-! DEFINITION. The host's operations on the block (`46_host_interface.md` R200 to R211). A host operation happens between
cycles only (R211; DESIGN CHOICE, log 15, the spec's decision D15, safe), so each is a function of the state. -/

namespace Sys2Proof.Machine

/-- The operations the host has (R200, R201, R204 to R206, and the `halted` view of `10_state.md` R30). There is no other
(R209). Addresses and values are integers that nibble construction truncates (R206). `Run` repeats `cycle` (R202) and is
`runWithin` below. -/
inductive HostMove where
  | construct
  | cycle
  | viewA
  | viewB
  | viewFlags
  | viewHalted
  | load (addr : Int)
  | store (value addr : Int)
  | capacity
deriving DecidableEq, Repr

/-- What an operation returns; `Cycle`, construction and `Store` return nothing (R201). -/
inductive HostReply where
  | nothing
  | word (w : Word)
  | flags (f : Flags)
  | bit (b : Bool)
  | count (n : Nat)
deriving DecidableEq, Repr

/-- The state after an operation: construction is reset (R200), a cycle is one step (R201), a store writes one word
(R206), and a view or a load changes nothing (R204 to R206). -/
def hostNext (m : EncodingMap) (move : HostMove) (s : State) : Host.Outcome State Fault Refusal :=
  match move with
  | .construct => .next State.reset
  | .cycle => cycleWith m s
  | .viewA => .next s
  | .viewB => .next s
  | .viewFlags => .next s
  | .viewHalted => .next s
  | .load _ => .next s
  | .store value addr => .next (s.store (nib addr) (nib value))
  | .capacity => .next s

/-- What an operation returns (R201, R204 to R206; `halted`: DESIGN CHOICE, log 16, the spec's decision D16, safe). -/
def hostReply (move : HostMove) (s : State) : HostReply :=
  match move with
  | .construct => .nothing
  | .cycle => .nothing
  | .viewA => .word s.a
  | .viewB => .word s.b
  | .viewFlags => .flags s.flags
  | .viewHalted => .bit s.halted
  | .load addr => .word (s.load (nib addr))
  | .store _ _ => .nothing
  | .capacity => .count Config.memWords

/-- `n` requests of `Cycle` in a row (R201). -/
def cycles (m : EncodingMap) : Nat → State → Host.Outcome State Fault Refusal
  | 0, s => .next s
  | n + 1, s =>
    match cycleWith m s with
    | .next t => cycles m n t
    | .fault r => .fault r
    | .refused r => .refused r

/-- `Run()` (`42_cpu_cycle.md` R157): the state in which it returns, if it returns within `n` cycles. The bound is this
function's, not the hardware's, which has none (R203): `Run` returns in a state if some bound gives that state, and runs
forever if none does. -/
def runWithin (m : EncodingMap) : Nat → State → Option State
  | 0, s => if s.halted then some s else none
  | n + 1, s =>
    if s.halted then some s
    else
      match cycleWith m s with
      | .next t => runWithin m n t
      | .fault _ => none
      | .refused _ => none

/-- Program loading: one `Store` per word, from an address on (R207). -/
def State.loadProgram (s : State) (addr : Word) : List Word → State
  | [] => s
  | w :: rest => (s.store addr w).loadProgram (nibAdd addr 1) rest

end Sys2Proof.Machine
end

