-- ==== Sys2Proof/Safety.lean ====
section
/-! DEFINITION. The terms the statements use: the invariant of the machine, a state about to run an instruction, states
that differ only in what nothing can see. -/

namespace Sys2Proof.Machine

/-- The invariant every cycle and every host operation keeps: memory in its canonical form (log 17), and Zero and
Negative not both set (`41_alu_flags.md` R137, R140). -/
def State.Inv (s : State) : Prop := s.mem.wf = true ∧ ¬(s.flags.z = true ∧ s.flags.n = true)

/-- The machine is running and the words at `pc` hold the opcode `op`, with the operand word `k` after it
(`42_cpu_cycle.md` R152, R154). -/
def State.AtTwoWords (m : EncodingMap) (s : State) (op : Opcode) (k : Word) : Prop :=
  s.halted = false ∧ s.load s.pc = m.code op ∧ s.load (s.pc + 1) = k

/-- The machine is running and the word at `pc` is the opcode `op` (`42_cpu_cycle.md` R152). -/
def State.AtOneWord (m : EncodingMap) (s : State) (op : Opcode) : Prop :=
  s.halted = false ∧ s.load s.pc = m.code op

/-- The state after the fetch of a two-word instruction with the opcode `op`: `is` holds the opcode word and `pc` is two
further (`42_cpu_cycle.md` R152, R154). -/
def State.afterTwoWords (m : EncodingMap) (s : State) (op : Opcode) : State :=
  { s with is := m.code op, pc := s.pc + 2 }

/-- The sub-field names a register and `x` is that register's value (`30_encoding.md` R79). -/
def State.Names (s : State) (f : RegOperand) (x : Word) : Prop := (f = .a ∧ x = s.a) ∨ (f = .b ∧ x = s.b)

/-- The opcode is one of the five that match no instruction (`30_encoding.md` R80). -/
def UnrecognisedOpcode (op : Opcode) : Prop :=
  op ∈ [Opcode.unrecognisedB, .unrecognisedC, .unrecognisedD, .unrecognisedE, .unrecognisedF]

/-- The opcode is one of the three of format R (`30_encoding.md` R73). -/
def PairOpcode (op : Opcode) : Prop := op ∈ [Opcode.mov, .add, .sub]

/-- The flags of an addition, in the words of `41_alu_flags.md` R135 to R137: V is the true signed overflow. -/
def flagsOfSum (x y : Word) : Flags where
  z := decide (x + y = 0)
  n := decide (sgn (x + y) < 0)
  v := decide (sgn x + sgn y < -8 ∨ 7 < sgn x + sgn y)

/-- The flags of a subtraction, in the words of `41_alu_flags.md` R136 (the addend reading, log 14): V is the true signed
overflow of the difference but for a subtrahend of 8, where it is 0 for a minuend 0 to 7 and 1 for a minuend 8 to 15. -/
def flagsOfDifference (x y : Word) : Flags where
  z := decide (x - y = 0)
  n := decide (sgn (x - y) < 0)
  v := if y = 8 then decide (8 ≤ uns x) else decide (sgn x - sgn y < -8 ∨ 7 < sgn x - sgn y)

/-- The two states agree on all that a program can act on: everything but `is`, `res`, N and V (`10_state.md` R22, R23,
R24 "no instruction reads `N` or `V`"). -/
def SameToPrograms (s t : State) : Prop :=
  s.a = t.a ∧ s.b = t.b ∧ s.pc = t.pc ∧ s.halted = t.halted ∧ s.flags.z = t.flags.z ∧ s.mem = t.mem

end Sys2Proof.Machine
end

