-- ==== Sys2Proof/Certificates/Slice0/Obligations.lean ====
section
/-! DEFINITION. The statements about the model, for the provers. "D<n>" is a decision of `92_eei_decisions.md`, the spec's
own choice and no statement of its source; a statement that rests on one says so and names the log entry. A statement
with `m : EncodingMap` holds for every legal assignment of opcode numbers and register indices, so it rests on neither D1
nor D2. Addresses and `pc` are 4 bits wide and wrap (D4, log 4) wherever one is incremented. -/

open Sys2Proof Sys2Proof.Machine

/-! ## Encoding -/

/-- Words written out bit by bit from `30_encoding.md` R71 to R74, R77, R79 decode to their instructions. The numbers are
decisions D1 and D2 (logs 1, 2). That an unrecognised opcode takes one word and leaves the word after it (R75, R80) is
decision D5 (DESIGN CHOICE, log 5). -/
def Obligations.WrittenOutWordsDecode : Prop :=
  decode [0b0000#4] = .instr .halt [] ∧
  decode [0b0001#4, 0b1110#4] = .instr (.loadA 14) [] ∧
  decode [0b0010#4, 0b0101#4] = .instr (.loadAI 5) [] ∧
  decode [0b0011#4, 0b1111#4] = .instr (.loadB 15) [] ∧
  decode [0b0100#4, 0b1101#4] = .instr (.storeA 13) [] ∧
  decode [0b0101#4, 0b0001#4] = .instr (.mov .a .b) [] ∧
  decode [0b0110#4, 0b0001#4] = .instr (.add .a .b) [] ∧
  decode [0b0110#4, 0b1011#4] = .instr (.add .reservedLo .reservedHi) [] ∧
  decode [0b0111#4, 0b0100#4] = .instr (.sub .b .a) [] ∧
  decode [0b1000#4, 0b1100#4] = .instr (.jump 12) [] ∧
  decode [0b1001#4, 0b1001#4] = .instr (.jumpZ 9) [] ∧
  decode [0b1010#4, 0b0110#4] = .instr (.jumpNZ 6) [] ∧
  decode [0b1011#4, 0b0111#4] = .instr .unrecognisedB [0b0111#4] ∧
  decode [0b1111#4] = .instr .unrecognisedF []

/-- Decoding an instruction's words gives it back, with every operand at every value and whatever words follow, under
every legal pair of maps. -/
def Obligations.DecodeOfEncode : Prop :=
  ∀ m : EncodingMap, m.Legal → ∀ (i : Instr) (rest : List Word), decodeWith m (encodeWith m i ++ rest) = .instr i rest

/-- Each word has one meaning: the words an instruction was decoded from are its words, under every legal pair of
maps. -/
def Obligations.EncodeOfDecode : Prop :=
  ∀ m : EncodingMap, m.Legal → ∀ (ws rest : List Word) (i : Instr),
    decodeWith m ws = .instr i rest → ws = encodeWith m i ++ rest

/-- `30_encoding.md` R75: the length depends on the opcode word alone; Halt and the unrecognised opcodes take one word
(the latter by D5, log 5), the others two; a list is rejected only if it is too short, and by name. -/
def Obligations.InstructionLength : Prop :=
  ∀ (m : EncodingMap) (w : Word),
    decodeWith m [] = .rejected .noOpcodeWord ∧
    ((m.opcode w = .halt ∨ UnrecognisedOpcode (m.opcode w)) →
      ∃ i, ∀ rest, decodeWith m (w :: rest) = .instr i rest) ∧
    (¬(m.opcode w = .halt ∨ UnrecognisedOpcode (m.opcode w)) →
      decodeWith m [w] = .rejected .noOperandWord ∧
      ∀ k, ∃ i, ∀ rest, decodeWith m (w :: k :: rest) = .instr i rest)

/-- `30_encoding.md` R77: unpack takes the high two bits first and the low two second, pack is `(f1 << 2) | f2`, the two
are inverse, and Mov, Add and Sub take their operands from the unpacked word in that order. -/
def Obligations.RegisterPairPacking : Prop :=
  (∀ w : Word, (unpackFields w).1.toNat = w.toNat / 4 ∧ (unpackFields w).2.toNat = w.toNat % 4) ∧
  (∀ f1 f2 : RegField, (packFields f1 f2).toNat = f1.toNat * 4 + f2.toNat ∧ unpackFields (packFields f1 f2) = (f1, f2)) ∧
  (∀ w : Word, packFields (unpackFields w).1 (unpackFields w).2 = w) ∧
  (∀ (m : EncodingMap) (w : Word),
    let r1 := m.regOperand (unpackFields w).1
    let r2 := m.regOperand (unpackFields w).2
    instrOf m .mov w = .mov r1 r2 ∧ instrOf m .add w = .add r1 r2 ∧ instrOf m .sub w = .sub r1 r2)

/-! ## Memory -/

/-- `20_memory.md` R53: the memory round trip, in every state, for every address and value. -/
def Obligations.MemoryRoundTrip : Prop :=
  ∀ (s : State) (addr v : Word),
    (s.store addr v).load addr = v ∧ ∀ other, other ≠ addr → (s.store addr v).load other = s.load other

/-- `20_memory.md` R43 to R46: addresses 2k and 2k + 1 share unit k (D10, log 10), the even address in the high half; a
write replaces one half of one unit and keeps the other half and every other unit. -/
def Obligations.StorageUnitPacking : Prop :=
  ∀ (s : State) (k : Fin 8) (v : Word),
    let even := BitVec.ofNat 4 (2 * k.val)
    let odd := BitVec.ofNat 4 (2 * k.val + 1)
    s.mem.readUnit k = s.load even ++ s.load odd ∧
    (s.store even v).mem.readUnit k = v ++ s.load odd ∧
    (s.store odd v).mem.readUnit k = s.load even ++ v ∧
    ∀ j, j ≠ k.val → (s.store even v).mem.readUnit j = s.mem.readUnit j ∧ (s.store odd v).mem.readUnit j = s.mem.readUnit j

/-- Two memories in canonical form that read alike at every address are equal (log 17): the list says nothing but the 16
words of `10_state.md` R25. -/
def Obligations.CanonicalMemoriesEqual : Prop :=
  ∀ m1 m2 : Memory, m1.wf = true → m2.wf = true → (∀ addr : Word, m1.readWord addr = m2.readWord addr) → m1 = m2

/-- `20_memory.md` R55: every word of a fresh memory is 0 and every unit 0x00, in the CPU after reset and in a memory
component of any size. -/
def Obligations.FreshMemoryIsZero : Prop :=
  (∀ addr : Word, State.reset.load addr = 0) ∧ (∀ k, State.reset.mem.readUnit k = 0x00) ∧
  ∀ (n : Nat) (addr v : Word), (MemComponent.construct n).load addr = some v → v = 0

/-- `20_memory.md` R54, `60_exceptions.md` R224: a requested count is rounded up to an even one and always granted; a
request above 16 emits the diagnostic event, no other does; an address the component has can be read and written. -/
def Obligations.MemoryComponentCapacity : Prop :=
  ∀ n : Nat,
    (MemComponent.construct n).capacity = (if n % 2 = 0 then n else n + 1) ∧
    (MemComponent.constructDiag n = some .memoryOverProvisioned ↔ 16 < n) ∧
    ∀ addr v : Word, addr.toNat < (MemComponent.construct n).capacity →
      (∃ w, (MemComponent.construct n).load addr = some w) ∧
      ∃ c, (MemComponent.construct n).store v addr = some c ∧ c.load addr = some v ∧
        c.capacity = (MemComponent.construct n).capacity

/-- The CPU's memory is the packed array of eight bytes built with 16 words (`20_memory.md` R42, R43): loads and stores on
the list of cells and on the array agree, and they start alike. -/
def Obligations.MemoryRefinesPackedArray : Prop :=
  MemComponent.ofMemory State.reset.mem = MemComponent.construct 16 ∧
  ∀ (m : Memory) (addr v : Word),
    (MemComponent.ofMemory m).capacity = 16 ∧
    (MemComponent.ofMemory m).load addr = some (m.readWord addr) ∧
    (MemComponent.ofMemory m).store v addr = some (MemComponent.ofMemory (m.writeWord addr v))

/-! ## Reset and the invariant -/

/-- `10_state.md` R29, `70_reset_and_hazards.md` R250: the value of everything after reset. All but the memory, `halted`
and `pc` are the spec's decision D6 (log 6). -/
def Obligations.ResetValues : Prop :=
  State.reset.a = 0 ∧ State.reset.b = 0 ∧ State.reset.pc = 0 ∧ State.reset.is = 0 ∧ State.reset.res = 0 ∧
  State.reset.halted = false ∧ State.reset.flags.z = false ∧ State.reset.flags.n = false ∧
  State.reset.flags.v = false ∧ ∀ addr : Word, State.reset.load addr = 0

/-- The state after reset meets the invariant: memory in canonical form, which is the model's reading (DEDUCED, log 17),
and Zero and Negative not both set, which at reset rests on the flags' reset values, decision D6 (DESIGN CHOICE, log
6). -/
def Obligations.ResetMeetsInvariant : Prop := State.reset.Inv

/-- Every step keeps the invariant: memory in canonical form (DEDUCED, log 17), Zero and Negative never both set (`41_alu_flags.md` R137,
R140). -/
def Obligations.StepKeepsInvariant : Prop :=
  ∀ s t : State, s.Inv → step s = .next t → t.Inv

/-- Every operation of the host keeps the invariant, under every encoding map. The canonical form of memory is the model's
reading (DEDUCED, log 17); after construction the clause on Zero and Negative rests on the flags' reset values, decision
D6 (DESIGN CHOICE, log 6). -/
def Obligations.HostMovesKeepInvariant : Prop :=
  ∀ (m : EncodingMap) (move : HostMove) (s t : State), s.Inv → hostNext m move s = .next t → t.Inv

/-! ## The cycle -/

/-- When the words at `pc` decode to `i`, a step of a running machine is `exec i` on the state after the fetch: `is` holds
the word at `pc` (D8, log 8) and `pc` is past the instruction's words. -/
def Obligations.StepRunsDecodedInstruction : Prop :=
  ∀ (s : State) (i : Instr) (rest : List Word),
    s.halted = false → decode [s.load s.pc, s.load (s.pc + 1)] = .instr i rest →
    step s = exec i { s with is := s.load s.pc, pc := if rest = [] then s.pc + 2 else s.pc + 1 }

/-- `42_cpu_cycle.md` R151: a cycle in the halted state changes nothing (D7, log 7). -/
def Obligations.HaltedCycleChangesNothing : Prop := ∀ s : State, s.halted = true → step s = .next s

/-- `00_scope.md` R9, `42_cpu_cycle.md` R159, `60_exceptions.md` R220: in every state, whatever its words, the next cycle
is defined: no fault, no refusal, no stuck state. The transition given to reserved and unrecognised words is D3 and D5
(logs 3, 5). -/
def Obligations.EveryCycleCompletes : Prop := ∀ (m : EncodingMap) (s : State), ∃ t, cycleWith m s = .next t

/-! ## What each instruction does: completion, result and frame -/

/-- LoadA, LoadAI, LoadB complete: one register is written and nothing else (`43_data_movement.md` R170 to R172). -/
def Obligations.LoadsWriteOneRegister : Prop :=
  ∀ (k : Word) (s : State),
    exec (.loadA k) s = .next { s with a := s.load k } ∧
    exec (.loadAI k) s = .next { s with a := k } ∧
    exec (.loadB k) s = .next { s with b := s.load k }

/-- StoreA completes: the word at `k` becomes A, every other word and all other state stay (`43_data_movement.md`
R173). -/
def Obligations.StoreAWritesOneWord : Prop :=
  ∀ (k : Word) (s : State), ∃ t : State, exec (.storeA k) s = .next t ∧ t = { s with mem := t.mem } ∧
    t.load k = s.a ∧ ∀ addr, addr ≠ k → t.load addr = s.load addr

/-- Mov completes: the destination becomes the source's value and nothing else changes, for all four pairs of registers
(`43_data_movement.md` R174). -/
def Obligations.MovCopiesOneRegister : Prop :=
  ∀ (s : State) (src : RegOperand) (x : Word), s.Names src x →
    exec (.mov src .a) s = .next { s with a := x } ∧ exec (.mov src .b) s = .next { s with b := x }

/-- Add completes: A and `res` become the sum, the flags those of the sum, nothing else changes, for all four pairs of
registers (`44_arithmetic.md` R180). That nothing but an ALU operation writes `res` is D9 (log 9). -/
def Obligations.AddWritesSumAndFlags : Prop :=
  ∀ (s : State) (f1 f2 : RegOperand) (x y : Word), s.Names f1 x → s.Names f2 y →
    exec (.add f1 f2) s = .next { s with a := x + y, res := x + y, flags := flagsOfSum x y }

/-- Sub completes: A and `res` become the first register less the second, the flags those of the difference, nothing else
changes, for all four pairs of registers (`44_arithmetic.md` R181). V is read by D14 (log 14). -/
def Obligations.SubWritesDifferenceAndFlags : Prop :=
  ∀ (s : State) (f1 f2 : RegOperand) (x y : Word), s.Names f1 x → s.Names f2 y →
    exec (.sub f1 f2) s = .next { s with a := x - y, res := x - y, flags := flagsOfDifference x y }

/-- A reserved register index in either sub-field of Mov, Add or Sub: the execute stage completes and changes nothing
(`30_encoding.md` R81, the spec's decision D3, log 3). -/
def Obligations.ReservedIndexDoesNothing : Prop :=
  ∀ (s : State) (f1 f2 : RegOperand), f1.named = false ∨ f2.named = false →
    exec (.mov f1 f2) s = .next s ∧ exec (.add f1 f2) s = .next s ∧ exec (.sub f1 f2) s = .next s

/-- Jump, JumpZ and JumpNZ complete and write `pc` only; of JumpZ and JumpNZ exactly one is taken (`45_control.md` R190 to
R192). -/
def Obligations.JumpsWritePcOnly : Prop :=
  ∀ (k : Word) (s : State),
    exec (.jump k) s = .next { s with pc := k } ∧
    exec (.jumpZ k) s = .next { s with pc := if s.flags.z = true then k else s.pc } ∧
    exec (.jumpNZ k) s = .next { s with pc := if s.flags.z = false then k else s.pc }

/-- Halt completes and sets the halt flag only (`45_control.md` R193). -/
def Obligations.HaltSetsHaltedOnly : Prop := ∀ s : State, exec .halt s = .next { s with halted := true }

/-- The five unrecognised opcodes complete and change nothing in the execute stage (`42_cpu_cycle.md` R156, D5, log 5). -/
def Obligations.UnrecognisedOpcodesDoNothing : Prop :=
  ∀ s : State,
    exec .unrecognisedB s = .next s ∧ exec .unrecognisedC s = .next s ∧ exec .unrecognisedD s = .next s ∧
    exec .unrecognisedE s = .next s ∧ exec .unrecognisedF s = .next s

/-! ## Whole cycles, as the rules of `43_data_movement.md` to `45_control.md` write them -/

/-- The whole cycle of LoadA, LoadAI and LoadB. -/
def Obligations.CycleOfLoads : Prop :=
  ∀ m : EncodingMap, m.Legal → ∀ (s : State) (k : Word),
    (s.AtTwoWords m .loadA k → cycleWith m s = .next { s.afterTwoWords m .loadA with a := s.load k }) ∧
    (s.AtTwoWords m .loadAI k → cycleWith m s = .next { s.afterTwoWords m .loadAI with a := k }) ∧
    (s.AtTwoWords m .loadB k → cycleWith m s = .next { s.afterTwoWords m .loadB with b := s.load k })

/-- The whole cycle of StoreA: the word stored to is the operand word's address, whatever stands there, the instruction's
own words included. -/
def Obligations.CycleOfStoreA : Prop :=
  ∀ m : EncodingMap, m.Legal → ∀ (s : State) (k : Word), s.AtTwoWords m .storeA k →
    ∃ t : State, cycleWith m s = .next t ∧ t = { s.afterTwoWords m .storeA with mem := t.mem } ∧
      t.load k = s.a ∧ ∀ addr, addr ≠ k → t.load addr = s.load addr

/-- The whole cycle of Mov between named registers. -/
def Obligations.CycleOfMov : Prop :=
  ∀ m : EncodingMap, m.Legal → ∀ (s : State) (k x : Word), s.AtTwoWords m .mov k →
    s.Names (m.regOperand (unpackFields k).1) x →
    (m.regOperand (unpackFields k).2 = .a → cycleWith m s = .next { s.afterTwoWords m .mov with a := x }) ∧
    (m.regOperand (unpackFields k).2 = .b → cycleWith m s = .next { s.afterTwoWords m .mov with b := x })

/-- The whole cycle of Add and of Sub on named registers (V after Sub by D14, log 14). -/
def Obligations.CycleOfAddAndSub : Prop :=
  ∀ m : EncodingMap, m.Legal → ∀ (s : State) (k x y : Word),
    s.Names (m.regOperand (unpackFields k).1) x → s.Names (m.regOperand (unpackFields k).2) y →
    (s.AtTwoWords m .add k →
      cycleWith m s = .next { s.afterTwoWords m .add with a := x + y, res := x + y, flags := flagsOfSum x y }) ∧
    (s.AtTwoWords m .sub k →
      cycleWith m s = .next { s.afterTwoWords m .sub with a := x - y, res := x - y, flags := flagsOfDifference x y })

/-- The whole cycle of the three jumps: a jump not taken has consumed its operand word all the same. -/
def Obligations.CycleOfJumps : Prop :=
  ∀ m : EncodingMap, m.Legal → ∀ (s : State) (k : Word),
    (s.AtTwoWords m .jump k → cycleWith m s = .next { s.afterTwoWords m .jump with pc := k }) ∧
    (s.AtTwoWords m .jumpZ k → cycleWith m s =
      .next { s.afterTwoWords m .jumpZ with pc := if s.flags.z = true then k else s.pc + 2 }) ∧
    (s.AtTwoWords m .jumpNZ k → cycleWith m s =
      .next { s.afterTwoWords m .jumpNZ with pc := if s.flags.z = true then s.pc + 2 else k })

/-- The whole cycle of Halt: one word is consumed and the machine is halted. -/
def Obligations.CycleOfHalt : Prop :=
  ∀ m : EncodingMap, m.Legal → ∀ s : State, s.AtOneWord m .halt →
    cycleWith m s = .next { s with is := m.code .halt, pc := s.pc + 1, halted := true }

/-- The whole cycle of an unrecognised opcode: one word is consumed and nothing else happens (D5, log 5). -/
def Obligations.CycleOfUnrecognisedOpcode : Prop :=
  ∀ m : EncodingMap, m.Legal → ∀ (s : State) (op : Opcode), UnrecognisedOpcode op → s.AtOneWord m op →
    cycleWith m s = .next { s with is := m.code op, pc := s.pc + 1 }

/-! ## Rules of the whole machine -/

/-- `10_state.md` R20: A is written only by LoadA, LoadAI, Mov to A, Add and Sub; B only by LoadB and Mov to B. -/
def Obligations.OnlyTheirWritersChangeRegisters : Prop :=
  ∀ (m : EncodingMap) (s t : State), cycleWith m s = .next t →
    (t.a ≠ s.a → m.opcode (s.load s.pc) ∈ [Opcode.loadA, .loadAI, .add, .sub] ∨
      (m.opcode (s.load s.pc) = .mov ∧ m.regOperand (unpackFields (s.load (s.pc + 1))).2 = .a)) ∧
    (t.b ≠ s.b → m.opcode (s.load s.pc) = .loadB ∨
      (m.opcode (s.load s.pc) = .mov ∧ m.regOperand (unpackFields (s.load (s.pc + 1))).2 = .b))

/-- `10_state.md` R23, R24: only Add and Sub write the flags or `res`, and after one that does `res` equals A (`res`: D9,
log 9). -/
def Obligations.OnlyAddAndSubChangeFlagsAndRes : Prop :=
  ∀ (m : EncodingMap) (s t : State), cycleWith m s = .next t → (t.flags ≠ s.flags ∨ t.res ≠ s.res) →
    m.opcode (s.load s.pc) ∈ [Opcode.add, .sub] ∧ t.res = t.a

/-- `10_state.md` R26, `42_cpu_cycle.md` R150: a cycle of a running machine ends halted exactly if it executes Halt, and no
cycle clears `halted` (D7, log 7). -/
def Obligations.OnlyHaltHalts : Prop :=
  ∀ (m : EncodingMap) (s t : State), cycleWith m s = .next t →
    (t.halted = true ↔ s.halted = true ∨ m.opcode (s.load s.pc) = .halt)

/-- `20_memory.md` R41, R48: a cycle changes a word of memory only if it executes StoreA, only the word its operand
addresses, and that to A. -/
def Obligations.OnlyStoreAChangesMemory : Prop :=
  ∀ (m : EncodingMap) (s t : State), cycleWith m s = .next t → ∀ addr, t.load addr ≠ s.load addr →
    m.opcode (s.load s.pc) = .storeA ∧ addr = s.load (s.pc + 1) ∧ t.load addr = s.a

/-- `60_exceptions.md` R227, `10_state.md` R21, R22: control changes only by the increment of `pc` and the three jumps;
`is` holds the opcode word just fetched. -/
def Obligations.ControlFlow : Prop :=
  ∀ (m : EncodingMap) (s t : State), s.halted = false → cycleWith m s = .next t →
    t.is = s.load s.pc ∧
    t.pc =
      if m.opcode (s.load s.pc) = .jump ∨ (m.opcode (s.load s.pc) = .jumpZ ∧ s.flags.z = true) ∨
          (m.opcode (s.load s.pc) = .jumpNZ ∧ s.flags.z = false) then s.load (s.pc + 1)
      else if m.opcode (s.load s.pc) ∈ [Opcode.halt, .unrecognisedB, .unrecognisedC, .unrecognisedD, .unrecognisedE,
          .unrecognisedF] then s.pc + 1
      else s.pc + 2

/-- `10_state.md` R22 to R24: `is`, `res`, N and V never influence what a program computes. Two states that differ only
there differ only there after any number of cycles. That no rule reads `is` or `res` across cycles is D8 and D9 (logs 8,
9). -/
def Obligations.HiddenStateNeverInfluences : Prop :=
  ∀ (m : EncodingMap) (n : Nat) (s t s' : State), SameToPrograms s t → cycles m n s = .next s' →
    ∃ t', cycles m n t = .next t' ∧ SameToPrograms s' t'

/-- `20_memory.md` R52: a word written by StoreA is what the next cycle fetches from that address, also when it is the
next instruction. Where `pc` then stands is D4, that `is` shows the word fetched is D8 (logs 4, 8). -/
def Obligations.SelfModifyingCode : Prop :=
  ∀ m : EncodingMap, m.Legal → ∀ (s t u : State) (k : Word), s.AtTwoWords m .storeA k →
    cycleWith m s = .next t → cycleWith m t = .next u →
    t.load k = s.a ∧ (k = t.pc → u.is = s.a) ∧ (k = t.pc → m.opcode s.a = .halt → u.halted = true)

/-! ## Running -/

/-- `42_cpu_cycle.md` R157: `Run` repeats cycles until `halted` is observed: it returns in the first halted state it
reaches, and in no other. -/
def Obligations.RunStopsAtFirstHaltedState : Prop :=
  ∀ (m : EncodingMap) (n : Nat) (s t : State),
    runWithin m n s = some t ↔
      ∃ k, k ≤ n ∧ cycles m k s = .next t ∧ t.halted = true ∧
        ∀ j, j < k → ∃ u, cycles m j s = .next u ∧ u.halted = false

/-- `42_cpu_cycle.md` R159: a run from a running state ends in exactly one way: its last cycle executes Halt, and the state
it returns in is the state before that cycle but for `is`, `pc` and `halted`. -/
def Obligations.RunEndsWithHaltCycle : Prop :=
  ∀ (m : EncodingMap) (n : Nat) (s t : State), s.halted = false → runWithin m n s = some t →
    ∃ k u, cycles m k s = .next u ∧ u.halted = false ∧ m.opcode (u.load u.pc) = .halt ∧
      t = { u with is := u.load u.pc, pc := u.pc + 1, halted := true }

/-- `42_cpu_cycle.md` R159: the state is finite, so a run that never ends comes back to a running state it was in, and
repeats it forever. The premise on memory is the invariant's. -/
def Obligations.EndlessRunRepeats : Prop :=
  ∀ (m : EncodingMap) (s : State), s.mem.wf = true → (∀ n, runWithin m n s = none) →
    ∃ i p u, 0 < p ∧ cycles m i s = .next u ∧ u.halted = false ∧ cycles m p u = .next u

/-- `42_cpu_cycle.md` R159: an unloaded memory halts in the first cycle. This rests on the opcode number of Halt (D1, log 1)
and on the reset values (D6, log 6). -/
def Obligations.EmptyMemoryHaltsAtOnce : Prop :=
  step State.reset = .next { State.reset with pc := 1, halted := true }

/-! ## The ALU and the nibble unit -/

/-- `41_alu_flags.md` R134, R135, R137: after an ALU operation Zero and Negative are the predicates of its result, and no
flag depends on the flags before. -/
def Obligations.ZeroAndNegativeOfResult : Prop :=
  ∀ (s s' : State) (op : AluOp) (a b : Word),
    ((s.aluCompute op a b).flags.z = true ↔ (s.aluCompute op a b).res = 0) ∧
    ((s.aluCompute op a b).flags.n = true ↔ (s.aluCompute op a b).res.getLsbD 3 = true) ∧
    (s.aluCompute op a b).flags = (s'.aluCompute op a b).flags

/-- `41_alu_flags.md` R131, R133: the carry chain adds modulo 16, and Sub is `a + (~b + 1)`, which is the difference. The
full-adder equations are from general knowledge (log 21). -/
def Obligations.RippleAddAndSub : Prop :=
  ∀ a b : Word,
    uns (rippleAdd a b) = (uns a + uns b) % 16 ∧ rippleAdd a b = nibAdd a b ∧
    aluResult .sub a b = rippleAdd a (nibAdd (nibNot b) 1) ∧ aluResult .sub a b = nibSub a b

/-- `41_alu_flags.md` R138: an operation select that is neither Add nor Sub changes nothing and emits a diagnostic event
(the flags: D13, log 13). -/
def Obligations.UnknownAluSelectDoesNothing : Prop :=
  (∀ (s : State) (a b : Word), s.aluRequest none a b = s) ∧
  aluDiag (none : Option AluOp) = some .unknownAluOp ∧ ∀ op : AluOp, aluDiag (some op) = none

/-- `40_nibble_unit.md` R100 to R103: construction keeps the low four bits of any integer, the two views, and equality of
patterns. -/
def Obligations.NibbleConstructionAndViews : Prop :=
  (∀ n : Int, (uns (nib n) : Int) = n % 16) ∧
  (∀ v : Word, uns v ≤ 15 ∧ nib (uns v) = v ∧ nib (sgn v) = v ∧ -8 ≤ sgn v ∧ sgn v ≤ 7 ∧
    sgn v = if v.getLsbD 3 = true then (uns v : Int) - 16 else uns v) ∧
  ∀ a b : Word, nibEq a b = true ↔ uns a = uns b

/-- `40_nibble_unit.md` R104 to R106: add, subtract and multiply modulo 16. -/
def Obligations.NibbleAddSubMul : Prop :=
  ∀ a b : Word,
    uns (nibAdd a b) = (uns a + uns b) % 16 ∧
    (uns (nibSub a b) : Int) = ((uns a : Int) - uns b) % 16 ∧
    uns (nibMul a b) = uns a * uns b % 16

/-- `40_nibble_unit.md` R107, R108: unsigned quotient and remainder (D12, log 12), 15 and the dividend for a zero divisor
(D11, log 11), and the law that joins them. -/
def Obligations.NibbleDivMod : Prop :=
  ∀ a b : Word,
    (uns b ≠ 0 → uns (nibDiv a b) = uns a / uns b ∧ uns (nibMod a b) = uns a % uns b) ∧
    nibDiv a 0 = 15 ∧ nibMod a 0 = a ∧
    nibAdd (nibMul (nibDiv a b) b) (nibMod a b) = a

/-- `40_nibble_unit.md` R109 to R114: shifts by any amount, the right shift logical (D12, log 12), and the bitwise
operators bit by bit, complement and negation. -/
def Obligations.NibbleShiftsAndBitwise : Prop :=
  ∀ a b : Word,
    uns (nibShl a b) = uns a * 2 ^ uns b % 16 ∧
    uns (nibShr a b) = uns a / 2 ^ uns b ∧
    (∀ i : Fin 4,
      (nibAnd a b).getLsbD i = (a.getLsbD i && b.getLsbD i) ∧
      (nibOr a b).getLsbD i = (a.getLsbD i || b.getLsbD i) ∧
      (nibXor a b).getLsbD i = (a.getLsbD i ^^ b.getLsbD i) ∧
      (nibNot a).getLsbD i = !a.getLsbD i) ∧
    uns (nibNot a) = 15 - uns a ∧ uns (nibNeg a) = (16 - uns a) % 16

/-! ## The host -/

/-- `46_host_interface.md` R204, R205, `20_memory.md` R42: the views and the capacity answer the current values, reading has
no side effect, and no operation but construction and a cycle changes a register or a flag. -/
def Obligations.HostViewsReadOnly : Prop :=
  ∀ (m : EncodingMap) (s : State),
    hostReply .viewA s = .word s.a ∧ hostNext m .viewA s = .next s ∧
    hostReply .viewB s = .word s.b ∧ hostNext m .viewB s = .next s ∧
    hostReply .viewFlags s = .flags s.flags ∧ hostNext m .viewFlags s = .next s ∧
    hostReply .capacity s = .count 16 ∧ hostNext m .capacity s = .next s ∧
    ∀ (move : HostMove) (t : State), move ≠ .construct → move ≠ .cycle → hostNext m move s = .next t →
      t.a = s.a ∧ t.b = s.b ∧ t.flags = s.flags

/-- `46_host_interface.md` R206, R209: the memory port truncates addresses and values to nibbles and reaches one word; the
host writes neither `pc`, `is`, `res` nor `halted`, and only construction clears `halted`. -/
def Obligations.HostReachesOnlyMemory : Prop :=
  ∀ (m : EncodingMap) (s : State),
    (∀ addr : Int, hostReply (.load addr) s = .word (s.load (BitVec.ofInt 4 addr)) ∧
      hostNext m (.load addr) s = .next s) ∧
    (∀ value addr : Int, ∃ t : State, hostNext m (.store value addr) s = .next t ∧ t = { s with mem := t.mem } ∧
      t.load (BitVec.ofInt 4 addr) = BitVec.ofInt 4 value ∧
      ∀ other, other ≠ BitVec.ofInt 4 addr → t.load other = s.load other) ∧
    (∀ (move : HostMove) (t : State), move ≠ .construct → hostNext m move s = .next t → s.halted = true →
      t.halted = true)

/-- `46_host_interface.md` R207: a program of at most 16 words, stored a word at a time from an address on, stands there; the
other words and all other state are as before. -/
def Obligations.ProgramLoading : Prop :=
  ∀ (s : State) (addr : Word) (ws : List Word), ws.length ≤ 16 →
    (∀ (i : Nat) (w : Word), ws[i]? = some w → (s.loadProgram addr ws).load (addr + BitVec.ofNat 4 i) = w) ∧
    (∀ other : Word, (∀ i : Nat, i < ws.length → other ≠ addr + BitVec.ofNat 4 i) →
      (s.loadProgram addr ws).load other = s.load other) ∧
    s.loadProgram addr ws = { s with mem := (s.loadProgram addr ws).mem }

/-- `60_exceptions.md` R223, R229, `42_cpu_cycle.md` R155: a cycle emits an event exactly for an unrecognised opcode or a
reserved register index, and a cycle that emits one changes `is` and `pc` only (D3, D5, logs 3, 5). -/
def Obligations.DiagnosticCycles : Prop :=
  ∀ (m : EncodingMap) (s : State),
    (cycleDiag m s = some .unknownOpcode ↔ s.halted = false ∧ UnrecognisedOpcode (m.opcode (s.load s.pc))) ∧
    (cycleDiag m s = some .reservedRegister ↔
      s.halted = false ∧ PairOpcode (m.opcode (s.load s.pc)) ∧
        ((m.regOperand (unpackFields (s.load (s.pc + 1))).1).named = false ∨
          (m.regOperand (unpackFields (s.load (s.pc + 1))).2).named = false)) ∧
    (cycleDiag m s = some .unknownOpcode → cycleWith m s = .next { s with is := s.load s.pc, pc := s.pc + 1 }) ∧
    (cycleDiag m s = some .reservedRegister → cycleWith m s = .next { s with is := s.load s.pc, pc := s.pc + 2 })

/-- `46_host_interface.md` R208 (D16, log 16): reset comes first, then a cycle, then the port's write; the outputs show the
state, and the diagnostic outputs the event of the cycle performed. -/
def Obligations.SignalRendering : Prop :=
  ∀ (p : PinsIn) (s : State),
    (p.rst = true → pinsNext p s = .next State.reset ∧ (pinsOut p s).diagUnknownOpcode = false ∧
      (pinsOut p s).diagReservedReg = false) ∧
    (p.rst = false → p.step = true → pinsNext p s = step s ∧
      ((pinsOut p s).diagUnknownOpcode = true ↔ cycleDiag specEncoding s = some .unknownOpcode) ∧
      ((pinsOut p s).diagReservedReg = true ↔ cycleDiag specEncoding s = some .reservedRegister)) ∧
    (p.rst = false → p.step = false → p.mWe = true → pinsNext p s = .next (s.store p.mAddr p.mWdata)) ∧
    (p.rst = false → p.step = false → p.mWe = false → pinsNext p s = .next s) ∧
    (pinsOut p s).mRdata = s.load p.mAddr ∧ (pinsOut p s).regA = s.a ∧ (pinsOut p s).regB = s.b ∧
    (pinsOut p s).flagZ = s.flags.z ∧ (pinsOut p s).flagN = s.flags.n ∧ (pinsOut p s).flagV = s.flags.v ∧
    (pinsOut p s).halted = s.halted
end

