-- ==== Sys2Proof/Laws/Decode.lean ====
section
/-! SUPPORT. The spec's encoding map is legal, and the opcode of a decoded instruction is the opcode decoded. -/

namespace Sys2Proof

/-- The opcode numbers of R74 and the register indices of R79 are legal maps. -/
theorem specEncoding_legal : specEncoding.Legal where
  opcode_code o := by cases o <;> rfl
  code_opcode := by decide
  regOperand_regCode r := by cases r <;> rfl
  regCode_regOperand := by decide

@[simp] theorem opcode_instrOf (m : EncodingMap) (op : Opcode) (k : Word) : (instrOf m op k).opcode = op := by
  cases op <;> rfl

end Sys2Proof
end

