-- ==== Sys2Proof/Laws/Memory.lean ====
section
/-! SUPPORT. The laws of the storage units: a write is seen by a read of the same unit and by no other, and every memory
operation keeps the canonical form. -/

namespace Sys2Proof.Machine

@[simp] theorem Memory.readUnit_nil (k : Nat) : Memory.readUnit [] k = Memory.unlisted := rfl

theorem Memory.readUnit_cons (c : Host.Cell) (m : Memory) (k : Nat) :
    Memory.readUnit (c :: m) k = if c.1 = k then c.2 else Memory.readUnit m k := rfl

/-! ## Reading after writing -/

theorem Memory.readUnit_others_same (m : Memory) (k : Nat) :
    Memory.readUnit (m.filter fun c => c.1 != k) k = Memory.unlisted := by
  induction m with
  | nil => rfl
  | cons c rest ih =>
    by_cases h : c.1 = k
    · simpa [h] using ih
    · simpa [h, Memory.readUnit_cons] using ih

theorem Memory.readUnit_others_other (m : Memory) {k j : Nat} (hj : j ≠ k) :
    Memory.readUnit (m.filter fun c => c.1 != k) j = Memory.readUnit m j := by
  induction m with
  | nil => rfl
  | cons c rest ih =>
    by_cases h : c.1 = k
    · have hc : c.1 ≠ j := fun e => hj (e.symm.trans h)
      simpa [h, Memory.readUnit_cons, hc, hj.symm] using ih
    · simp [h, Memory.readUnit_cons, ih]

theorem Memory.readUnit_insertCell_other (m : Memory) (u : Byte) {k j : Nat} (hj : j ≠ k) :
    Memory.readUnit (Memory.insertCell k u m) j = Memory.readUnit m j := by
  induction m with
  | nil => simp [Memory.insertCell, Memory.readUnit_cons, hj.symm]
  | cons c rest ih =>
    by_cases h : k < c.1
    · simp [Memory.insertCell, h, Memory.readUnit_cons, hj.symm]
    · simp [Memory.insertCell, h, Memory.readUnit_cons, ih]

theorem Memory.readUnit_insertCell_same (m : Memory) (u : Byte) (k : Nat) (hm : ∀ c ∈ m, c.1 ≠ k) :
    Memory.readUnit (Memory.insertCell k u m) k = u := by
  induction m with
  | nil => simp [Memory.insertCell, Memory.readUnit_cons]
  | cons c rest ih =>
    have hc : c.1 ≠ k := hm c (by simp)
    by_cases h : k < c.1
    · simp [Memory.insertCell, h, Memory.readUnit_cons]
    · simpa [Memory.insertCell, h, Memory.readUnit_cons, hc] using ih fun c' h' => hm c' (by simp [h'])

theorem Memory.readUnit_writeUnit (m : Memory) (k j : Nat) (u : Byte) :
    (m.writeUnit k u).readUnit j = if j = k then u else m.readUnit j := by
  by_cases hj : j = k
  · subst hj
    by_cases hu : u = Memory.unlisted
    · simp [Memory.writeUnit, hu, Memory.readUnit_others_same]
    · simpa [Memory.writeUnit, hu] using Memory.readUnit_insertCell_same _ u j (by simp)
  · by_cases hu : u = Memory.unlisted
    · simp [Memory.writeUnit, hu, hj, Memory.readUnit_others_other m hj]
    · simp [Memory.writeUnit, hu, hj, Memory.readUnit_insertCell_other _ u hj, Memory.readUnit_others_other m hj]

/-! ## The canonical form -/

theorem Memory.wfFrom_cons {lo : Nat} {c : Host.Cell} {m : Memory} :
    Memory.wfFrom lo (c :: m) = true ↔
      lo ≤ c.1 ∧ c.1 < Config.memUnits ∧ c.2 ≠ Memory.unlisted ∧ Memory.wfFrom (c.1 + 1) m = true := by
  simp [Memory.wfFrom, and_assoc]

theorem Memory.wfFrom_mono {lo hi : Nat} {m : Memory} (h : Memory.wfFrom hi m = true) (hle : lo ≤ hi) :
    Memory.wfFrom lo m = true := by
  cases m with
  | nil => rfl
  | cons c rest =>
    rw [Memory.wfFrom_cons] at h ⊢
    exact ⟨hle.trans h.1, h.2⟩

theorem Memory.wfFrom_others {lo k : Nat} {m : Memory} (h : Memory.wfFrom lo m = true) :
    Memory.wfFrom lo (m.filter fun c => c.1 != k) = true := by
  induction m generalizing lo with
  | nil => rfl
  | cons c rest ih =>
    rw [Memory.wfFrom_cons] at h
    obtain ⟨h1, h2, h3, h4⟩ := h
    by_cases hc : c.1 = k
    · simpa [hc] using Memory.wfFrom_mono (ih h4) (by omega : lo ≤ c.1 + 1)
    · have hf : (c :: rest).filter (fun c => c.1 != k) = c :: rest.filter (fun c => c.1 != k) := by simp [hc]
      rw [hf, Memory.wfFrom_cons]
      exact ⟨h1, h2, h3, ih h4⟩

theorem Memory.wfFrom_insertCell {lo k : Nat} {u : Byte} {m : Memory} (h : Memory.wfFrom lo m = true)
    (hm : ∀ c ∈ m, c.1 ≠ k) (hlo : lo ≤ k) (hk : k < Config.memUnits) (hu : u ≠ Memory.unlisted) :
    Memory.wfFrom lo (Memory.insertCell k u m) = true := by
  induction m generalizing lo with
  | nil => simp [Memory.insertCell, Memory.wfFrom, hlo, hk, hu]
  | cons c rest ih =>
    rw [Memory.wfFrom_cons] at h
    obtain ⟨h1, h2, h3, h4⟩ := h
    have hc : c.1 ≠ k := hm c (by simp)
    by_cases hlt : k < c.1
    · simp only [Memory.insertCell, hlt, if_true]
      rw [Memory.wfFrom_cons, Memory.wfFrom_cons]
      exact ⟨hlo, hk, hu, hlt, h2, h3, h4⟩
    · simp only [Memory.insertCell, hlt, if_false]
      rw [Memory.wfFrom_cons]
      exact ⟨h1, h2, h3, ih h4 (fun c' h' => hm c' (by simp [h'])) (by omega)⟩

theorem Memory.wf_writeUnit {m : Memory} {k : Nat} {u : Byte} (h : m.wf = true) (hk : k < Config.memUnits) :
    (m.writeUnit k u).wf = true := by
  by_cases hu : u = Memory.unlisted
  · simpa [Memory.writeUnit, hu, Memory.wf] using Memory.wfFrom_others h
  · simpa [Memory.writeUnit, hu, Memory.wf] using
      Memory.wfFrom_insertCell (Memory.wfFrom_others h) (by simp) (Nat.zero_le k) hk hu

theorem unitOf_lt (addr : Word) : unitOf addr < Config.memUnits := (addr.extractLsb' 1 3).isLt

/-- A store keeps the canonical form, whatever the address and the value. -/
theorem Memory.wf_writeWord {m : Memory} (h : m.wf = true) (addr v : Word) : (m.writeWord addr v).wf = true :=
  Memory.wf_writeUnit h (unitOf_lt addr)

theorem Memory.wf_reset : State.reset.mem.wf = true := rfl

end Sys2Proof.Machine
end

