-- ==== Sys2Proof/Laws/Nibble.lean ====
section
/-! SUPPORT. The nibble operators the CPU uses, as BitVec arithmetic: the project's normal form for `pc` and for the
ALU's results. -/

namespace Sys2Proof.Machine

@[simp] theorem nibAdd_eq (a b : Word) : nibAdd a b = a + b := by
  apply BitVec.eq_of_toInt_eq
  simp [nibAdd, nib, uns, BitVec.toInt_add]
  simp [BitVec.toInt_eq_toNat_bmod, Int.add_bmod]

@[simp] theorem nibNot_eq : ∀ a : Word, nibNot a = ~~~a := by decide

@[simp] theorem nibNeg_eq : ∀ b : Word, nibNeg b = -b := by decide

/-- The carry chain adds (`41_alu_flags.md` R131). -/
theorem rippleAdd_eq_add : ∀ a b : Word, rippleAdd a b = a + b := by decide

@[simp] theorem aluResult_add (a b : Word) : aluResult .add a b = a + b := rippleAdd_eq_add a b

@[simp] theorem aluResult_sub (a b : Word) : aluResult .sub a b = a - b := by
  simp [aluResult, secondAddend, rippleAdd_eq_add, BitVec.sub_eq_add_neg]

end Sys2Proof.Machine
end

