-- ==== Sys2Proof/Laws/State.lean ====
section
/-! SUPPORT. What each update of the state does to each field: one lemma per field per update, so that no later proof
unfolds a record update. -/

namespace Sys2Proof.Machine

variable (s : State) (v addr target : Word) (op : AluOp) (x y : Word)

/-! ## Writing a register -/

@[simp] theorem State.writeReg_a_a : (s.writeReg .a v).a = v := rfl
@[simp] theorem State.writeReg_a_b : (s.writeReg .a v).b = s.b := rfl
@[simp] theorem State.writeReg_b_a : (s.writeReg .b v).a = s.a := rfl
@[simp] theorem State.writeReg_b_b : (s.writeReg .b v).b = v := rfl
@[simp] theorem State.writeReg_pc (r : Reg) : (s.writeReg r v).pc = s.pc := by cases r <;> rfl
@[simp] theorem State.writeReg_is (r : Reg) : (s.writeReg r v).is = s.is := by cases r <;> rfl
@[simp] theorem State.writeReg_res (r : Reg) : (s.writeReg r v).res = s.res := by cases r <;> rfl
@[simp] theorem State.writeReg_halted (r : Reg) : (s.writeReg r v).halted = s.halted := by cases r <;> rfl
@[simp] theorem State.writeReg_flags (r : Reg) : (s.writeReg r v).flags = s.flags := by cases r <;> rfl
@[simp] theorem State.writeReg_mem (r : Reg) : (s.writeReg r v).mem = s.mem := by cases r <;> rfl

/-! ## Reading a register -/

@[simp] theorem State.readReg_a : s.readReg .a = s.a := rfl
@[simp] theorem State.readReg_b : s.readReg .b = s.b := rfl

/-! ## Writing memory -/

@[simp] theorem State.store_a : (s.store addr v).a = s.a := rfl
@[simp] theorem State.store_b : (s.store addr v).b = s.b := rfl
@[simp] theorem State.store_pc : (s.store addr v).pc = s.pc := rfl
@[simp] theorem State.store_is : (s.store addr v).is = s.is := rfl
@[simp] theorem State.store_res : (s.store addr v).res = s.res := rfl
@[simp] theorem State.store_halted : (s.store addr v).halted = s.halted := rfl
@[simp] theorem State.store_flags : (s.store addr v).flags = s.flags := rfl
@[simp] theorem State.store_mem : (s.store addr v).mem = s.mem.writeWord addr v := rfl

/-! ## Writing the program counter -/

@[simp] theorem State.setPc_a : (s.setPc target).a = s.a := rfl
@[simp] theorem State.setPc_b : (s.setPc target).b = s.b := rfl
@[simp] theorem State.setPc_pc : (s.setPc target).pc = target := rfl
@[simp] theorem State.setPc_is : (s.setPc target).is = s.is := rfl
@[simp] theorem State.setPc_res : (s.setPc target).res = s.res := rfl
@[simp] theorem State.setPc_halted : (s.setPc target).halted = s.halted := rfl
@[simp] theorem State.setPc_flags : (s.setPc target).flags = s.flags := rfl
@[simp] theorem State.setPc_mem : (s.setPc target).mem = s.mem := rfl

/-! ## Halting -/

@[simp] theorem State.halt_a : s.halt.a = s.a := rfl
@[simp] theorem State.halt_b : s.halt.b = s.b := rfl
@[simp] theorem State.halt_pc : s.halt.pc = s.pc := rfl
@[simp] theorem State.halt_is : s.halt.is = s.is := rfl
@[simp] theorem State.halt_res : s.halt.res = s.res := rfl
@[simp] theorem State.halt_halted : s.halt.halted = true := rfl
@[simp] theorem State.halt_flags : s.halt.flags = s.flags := rfl
@[simp] theorem State.halt_mem : s.halt.mem = s.mem := rfl

/-! ## The opcode fetch -/

@[simp] theorem State.fetchOpcode_a : s.fetchOpcode.a = s.a := rfl
@[simp] theorem State.fetchOpcode_b : s.fetchOpcode.b = s.b := rfl
@[simp] theorem State.fetchOpcode_pc : s.fetchOpcode.pc = nibAdd s.pc 1 := rfl
@[simp] theorem State.fetchOpcode_is : s.fetchOpcode.is = s.load s.pc := rfl
@[simp] theorem State.fetchOpcode_res : s.fetchOpcode.res = s.res := rfl
@[simp] theorem State.fetchOpcode_halted : s.fetchOpcode.halted = s.halted := rfl
@[simp] theorem State.fetchOpcode_flags : s.fetchOpcode.flags = s.flags := rfl
@[simp] theorem State.fetchOpcode_mem : s.fetchOpcode.mem = s.mem := rfl

/-! ## The ALU -/

@[simp] theorem State.aluCompute_a : (s.aluCompute op x y).a = s.a := rfl
@[simp] theorem State.aluCompute_b : (s.aluCompute op x y).b = s.b := rfl
@[simp] theorem State.aluCompute_pc : (s.aluCompute op x y).pc = s.pc := rfl
@[simp] theorem State.aluCompute_is : (s.aluCompute op x y).is = s.is := rfl
@[simp] theorem State.aluCompute_res : (s.aluCompute op x y).res = aluResult op x y := rfl
@[simp] theorem State.aluCompute_halted : (s.aluCompute op x y).halted = s.halted := rfl
@[simp] theorem State.aluCompute_flags : (s.aluCompute op x y).flags = aluFlags op x y := rfl
@[simp] theorem State.aluCompute_mem : (s.aluCompute op x y).mem = s.mem := rfl

/-! ## A read of memory after an update that leaves memory alone -/

/-- A read depends on the memory field only. -/
theorem State.load_congr {s t : State} (h : s.mem = t.mem) (addr : Word) : s.load addr = t.load addr := by
  simp only [State.load, h]

@[simp] theorem State.load_writeReg (r : Reg) : (s.writeReg r v).load addr = s.load addr :=
  State.load_congr (State.writeReg_mem s v r) addr
@[simp] theorem State.load_setPc : (s.setPc target).load addr = s.load addr := rfl
@[simp] theorem State.load_halt : s.halt.load addr = s.load addr := rfl
@[simp] theorem State.load_fetchOpcode : s.fetchOpcode.load addr = s.load addr := rfl
@[simp] theorem State.load_aluCompute : (s.aluCompute op x y).load addr = s.load addr := rfl

end Sys2Proof.Machine
end

