-- ==== Sys2Proof/Laws/Ops.lean ====
section
/-! SUPPORT. What the shared operations do, said once: the fetch of an instruction, a register pair, the ALU's write to
A, and a cycle of a running machine. -/

namespace Sys2Proof.Machine

/-! ## The fetch -/

/-- The instruction a fetch finds is the one of the opcode word and, where it takes one, of the word after it. -/
theorem State.fetchInstr_fst (m : EncodingMap) (s : State) :
    (s.fetchInstr m).1 =
      instrOf m (m.opcode (s.load s.pc)) (if (m.opcode (s.load s.pc)).hasOperand then s.load (s.pc + 1) else 0) := by
  simp only [State.fetchInstr, State.fetchOpcode_is]
  by_cases h : (m.opcode (s.load s.pc)).hasOperand <;> simp [h]

/-- A fetch writes `is` and `pc` and nothing else. -/
theorem State.fetchInstr_snd (m : EncodingMap) (s : State) :
    (s.fetchInstr m).2 =
      { s with
        is := s.load s.pc
        pc := if (m.opcode (s.load s.pc)).hasOperand then s.pc + 2 else s.pc + 1 } := by
  have hpc : s.pc + 1 + 1 = s.pc + 2 := by rw [BitVec.add_assoc]; rfl
  simp only [State.fetchInstr, State.fetchOpcode_is]
  by_cases h : (m.opcode (s.load s.pc)).hasOperand
  · simp only [h, if_true, State.advance, State.setPc, State.fetchOpcode, nibAdd_eq, hpc]
  · simp only [h, State.advance, State.setPc, State.fetchOpcode, nibAdd_eq]
    rfl

/-- The cycle of a halted machine. -/
theorem cycleWith_halted (m : EncodingMap) {s : State} (h : s.halted = true) : cycleWith m s = .next s := by
  simp [cycleWith, h]

/-- The cycle of a running machine. -/
theorem cycleWith_running (m : EncodingMap) {s : State} (h : s.halted = false) :
    cycleWith m s = exec (s.fetchInstr m).1 (s.fetchInstr m).2 := by
  simp [cycleWith, h]

/-! ## Register pairs -/

/-- A register pair either runs its action on two registers or does nothing. -/
theorem State.withRegPair_cases (s : State) (f1 f2 : RegOperand) (act : Reg → Reg → State) :
    (∃ r1 r2, registerOf f1 = some r1 ∧ registerOf f2 = some r2 ∧ s.withRegPair f1 f2 act = act r1 r2) ∨
      ((registerOf f1 = none ∨ registerOf f2 = none) ∧ s.withRegPair f1 f2 act = s) := by
  unfold State.withRegPair
  cases h1 : registerOf f1 <;> cases h2 : registerOf f2 <;> simp

/-- Add and Sub write A, `res` and the flags and nothing else. -/
theorem State.aluToA_eq (s : State) (op : AluOp) (r1 r2 : Reg) :
    s.aluToA op r1 r2 =
      { s with
        a := aluResult op (s.readReg r1) (s.readReg r2)
        res := aluResult op (s.readReg r1) (s.readReg r2)
        flags := aluFlags op (s.readReg r1) (s.readReg r2) } := rfl

/-- Zero and Negative of one operation are never both set (`41_alu_flags.md` R137). -/
theorem aluFlags_zero_negative (op : AluOp) (x y : Word) :
    ¬((aluFlags op x y).z = true ∧ (aluFlags op x y).n = true) := by
  rintro ⟨hz, hn⟩
  simp only [aluFlags, zeroFlag, negativeFlag, beq_iff_eq] at hz hn
  simp [hz] at hn

end Sys2Proof.Machine
end

