-- ==== Sys2Proof/Laws/PerInstr.lean ====
section
/-! SUPPORT. Statements about every instruction as syntax, one lemma per constructor. -/

namespace Sys2Proof.Laws

/-- An instruction's words are its opcode word and, exactly when its opcode takes one, one operand word
(`30_encoding.md` R70, R75). -/
def WordCount.Statement (i : Instr) : Prop :=
  ∀ m : EncodingMap, (encodeWith m i).length = if i.opcode.hasOperand then 2 else 1

theorem WordCount.halt : WordCount.Statement .halt := fun _ => rfl
theorem WordCount.loadA (k : Word) : WordCount.Statement (.loadA k) := fun _ => rfl
theorem WordCount.loadAI (k : Word) : WordCount.Statement (.loadAI k) := fun _ => rfl
theorem WordCount.loadB (k : Word) : WordCount.Statement (.loadB k) := fun _ => rfl
theorem WordCount.storeA (k : Word) : WordCount.Statement (.storeA k) := fun _ => rfl
theorem WordCount.mov (src dest : RegOperand) : WordCount.Statement (.mov src dest) := fun _ => rfl
theorem WordCount.add (f1 f2 : RegOperand) : WordCount.Statement (.add f1 f2) := fun _ => rfl
theorem WordCount.sub (f1 f2 : RegOperand) : WordCount.Statement (.sub f1 f2) := fun _ => rfl
theorem WordCount.jump (k : Word) : WordCount.Statement (.jump k) := fun _ => rfl
theorem WordCount.jumpZ (k : Word) : WordCount.Statement (.jumpZ k) := fun _ => rfl
theorem WordCount.jumpNZ (k : Word) : WordCount.Statement (.jumpNZ k) := fun _ => rfl
theorem WordCount.unrecognisedB : WordCount.Statement .unrecognisedB := fun _ => rfl
theorem WordCount.unrecognisedC : WordCount.Statement .unrecognisedC := fun _ => rfl
theorem WordCount.unrecognisedD : WordCount.Statement .unrecognisedD := fun _ => rfl
theorem WordCount.unrecognisedE : WordCount.Statement .unrecognisedE := fun _ => rfl
theorem WordCount.unrecognisedF : WordCount.Statement .unrecognisedF := fun _ => rfl

end Sys2Proof.Laws
end

