-- ==== Sys2Proof/Machine/Assembly.lean ====
section
/-! DEFINITION. The notation of `30_encoding.md` R83: a program listing as lines, the words of a line, its text. The source
defines no assembler; the notation is the spec's own (DESIGN CHOICE, log 29, the spec's decision D17), safe: no rule of
the machine reads it. -/

namespace Sys2Proof.Machine

/-- A line of a listing: an instruction or a raw data word (R83). -/
inductive AsmLine where
  | instr (i : Instr)
  | word (v : Word)
deriving DecidableEq, Repr

/-- The words of a line (R83): `OP_<NAME>` and the operand word, or the raw word. -/
def AsmLine.words (m : EncodingMap) : AsmLine → List Word
  | .instr i => encodeWith m i
  | .word v => [v]

/-- The words of a listing, line after line. -/
def assemble (m : EncodingMap) (lines : List AsmLine) : List Word := lines.flatMap (AsmLine.words m)

/-- The name of a register operand in a listing; a reserved one has none. -/
def registerText : RegOperand → Option String
  | .a => some "A"
  | .b => some "B"
  | .reservedLo => none
  | .reservedHi => none

/-- A form with two register operands. -/
def pairText (name : String) (f1 f2 : RegOperand) : Option String :=
  match registerText f1, registerText f2 with
  | some r1, some r2 => some (name ++ " " ++ r1 ++ ", " ++ r2)
  | some _, none => none
  | none, some _ => none
  | none, none => none

/-- A form with a number. -/
def numberText (name : String) (k : Word) : Option String := some (name ++ " " ++ toString k.toNat)

/-- The text of a line in the notation of R83; a reserved index and an unrecognised opcode have no form but `.word`. -/
def AsmLine.text : AsmLine → Option String
  | .word v => numberText ".word" v
  | .instr .halt => some "Halt"
  | .instr (.loadA k) => numberText "LoadA" k
  | .instr (.loadAI k) => numberText "LoadAI" k
  | .instr (.loadB k) => numberText "LoadB" k
  | .instr (.storeA k) => numberText "StoreA" k
  | .instr (.mov src dest) => pairText "Mov" src dest
  | .instr (.add f1 f2) => pairText "Add" f1 f2
  | .instr (.sub f1 f2) => pairText "Sub" f1 f2
  | .instr (.jump k) => numberText "Jump" k
  | .instr (.jumpZ k) => numberText "JumpZ" k
  | .instr (.jumpNZ k) => numberText "JumpNZ" k
  | .instr .unrecognisedB => none
  | .instr .unrecognisedC => none
  | .instr .unrecognisedD => none
  | .instr .unrecognisedE => none
  | .instr .unrecognisedF => none

end Sys2Proof.Machine
end

