-- ==== Sys2Proof/Tests/Slice0.lean ====
section
/-! SUPPORT. The model's own tests. The expected results of the step tests are rows T1 to T36 of `95_test_vectors.md`
section 4; the words of the decode tests are written out from `30_encoding.md` R71 to R74, R77, R79. The witnesses show a
state and operands that meet the hypotheses of each statement. -/

namespace Sys2Proof.Tests

open Sys2Proof Sys2Proof.Machine

/-- A running state with the given registers and flags and the given words (address, value) in an empty memory. -/
def st (pc a b : Word) (flags : Flags) (ws : List (Word × Word)) : State :=
  ws.foldl (fun s w => s.store w.1 w.2) { State.reset with pc := pc, a := a, b := b, flags := flags }

/-- All flags clear. -/
def clear : Flags := { z := false, n := false, v := false }

/-- Only Zero set. -/
def onlyZ : Flags := { z := true, n := false, v := false }

/-- A view of the state after one step. -/
def after {α : Type} (s : State) (view : State → α) : Option α :=
  match step s with
  | .next t => some (view t)
  | .fault _ => none
  | .refused _ => none

/-- A, B, `pc`, `is`. -/
def regs (s : State) : Word × Word × Word × Word := (s.a, s.b, s.pc, s.is)

/-- A, `res`, the flags, `pc`. -/
def alu (s : State) : Word × Word × Flags × Word := (s.a, s.res, s.flags, s.pc)

/-! ## Well-formedness: a term that each check refuses, and terms it passes -/

theorem test_wf_mov_src : (Instr.mov .reservedLo .a).wellFormed = false := by decide
theorem test_wf_mov_dest : (Instr.mov .a .reservedHi).wellFormed = false := by decide
theorem test_wf_add_first : (Instr.add .reservedHi .b).wellFormed = false := by decide
theorem test_wf_add_second : (Instr.add .b .reservedLo).wellFormed = false := by decide
theorem test_wf_sub_first : (Instr.sub .reservedLo .b).wellFormed = false := by decide
theorem test_wf_sub_second : (Instr.sub .a .reservedLo).wellFormed = false := by decide
theorem test_wf_passes : (Instr.sub .b .a).wellFormed = true ∧ (Instr.loadA 15).wellFormed = true := by decide

/-! ## Decoding: one word for every constructor -/

theorem test_decode_halt : decode [0b0000] = .instr .halt [] := by decide
theorem test_decode_loadA : decode [0b0001, 0b1110] = .instr (.loadA 14) [] := by decide
theorem test_decode_loadAI : decode [0b0010, 0b1101] = .instr (.loadAI 13) [] := by decide
theorem test_decode_loadB : decode [0b0011, 0b1111] = .instr (.loadB 15) [] := by decide
theorem test_decode_storeA : decode [0b0100, 0b0110] = .instr (.storeA 6) [] := by decide
theorem test_decode_mov : decode [0b0101, 0b0001] = .instr (.mov .a .b) [] := by decide
theorem test_decode_mov_reserved : decode [0b0101, 0b0010] = .instr (.mov .a .reservedLo) [] := by decide
theorem test_decode_add : decode [0b0110, 0b0100] = .instr (.add .b .a) [] := by decide
theorem test_decode_add_reserved : decode [0b0110, 0b1101] = .instr (.add .reservedHi .b) [] := by decide
theorem test_decode_sub : decode [0b0111, 0b0001, 0b0000] = .instr (.sub .a .b) [0b0000] := by decide
theorem test_decode_jump : decode [0b1000, 0b0101] = .instr (.jump 5) [] := by decide
theorem test_decode_jumpZ : decode [0b1001, 0b1011] = .instr (.jumpZ 11) [] := by decide
theorem test_decode_jumpNZ : decode [0b1010, 0b0110] = .instr (.jumpNZ 6) [] := by decide
theorem test_decode_unrecognisedB : decode [0b1011, 0b0111] = .instr .unrecognisedB [0b0111] := by decide
theorem test_decode_unrecognisedC : decode [0b1100] = .instr .unrecognisedC [] := by decide
theorem test_decode_unrecognisedD : decode [0b1101] = .instr .unrecognisedD [] := by decide
theorem test_decode_unrecognisedE : decode [0b1110] = .instr .unrecognisedE [] := by decide
theorem test_decode_unrecognisedF : decode [0b1111] = .instr .unrecognisedF [] := by decide
theorem test_decode_too_short : decode [] = .rejected .noOpcodeWord ∧ decode [0b0001] = .rejected .noOperandWord := by
  decide

/-- The worked forms of `30_encoding.md` R83. -/
theorem test_encode : encode (.sub .b .a) = [7, 4] ∧ encode (.loadAI 2) = [2, 2] ∧ encode .halt = [0] := by decide

theorem test_table_words :
    decodeTableWord 8 0x00 = some .halt ∧ decodeTableWord 8 0x1E = some (.loadA 14) ∧
    decodeTableWord 8 0x0B = some .unrecognisedB ∧ decodeTableWord 4 0xF = some .unrecognisedF ∧
    decodeTableWord 8 0x51 = some (.mov .a .b) := by decide

/-! ## One step (`95_test_vectors.md` section 4) -/

theorem test_T1_loadA : after (st 0 3 0 clear [(0, 1), (1, 14), (14, 7)]) regs = some (7, 0, 2, 1) := by decide
theorem test_T2_loadA_own_operand : after (st 4 0 0 clear [(4, 1), (5, 5)]) regs = some (5, 0, 6, 1) := by decide
theorem test_T3_loadAI : after (st 2 0 0 onlyZ [(2, 2), (3, 13)]) (fun t => (regs t, t.flags)) =
    some ((13, 0, 4, 2), onlyZ) := by decide
theorem test_T4_loadAI_zero : after (st 0 9 0 clear [(0, 2)]) (fun t => (regs t, t.flags)) =
    some ((0, 0, 2, 2), clear) := by decide
theorem test_T5_loadB : after (st 2 4 1 clear [(2, 3), (3, 15), (15, 6)]) regs = some (4, 6, 4, 3) := by decide
theorem test_T6_storeA : after (st 6 5 0 clear [(6, 4), (7, 13), (12, 9)])
    (fun t => (t.load 13, t.load 12, t.mem.readUnit 6, t.pc)) = some (5, 9, 0x95, 8) := by decide
theorem test_T8_storeA_onto_itself : after (st 0 0 0 clear [(0, 4)]) (fun t => (t.load 0, t.pc, t.is)) =
    some (0, 2, 4) := by decide
theorem test_T9_mov : after (st 2 2 7 clear [(2, 5), (3, 1)]) regs = some (2, 2, 4, 5) := by decide
theorem test_T12_mov_reserved : after (st 0 2 7 clear [(0, 5), (1, 2)]) regs = some (2, 7, 2, 5) := by decide
theorem test_T15_add : after (st 0 1 8 clear [(0, 6), (1, 5)]) alu =
    some (0, 0, { z := true, n := false, v := true }, 2) := by decide
theorem test_T17_add_reserved : after (st 2 7 0 onlyZ [(2, 6), (3, 11)]) alu = some (7, 0, onlyZ, 4) := by decide
theorem test_T18_sub : after (st 6 5 2 clear [(6, 7), (7, 4)]) alu =
    some (13, 13, { z := false, n := true, v := false }, 8) := by decide
theorem test_T21_sub_eight : after (st 0 8 0 clear [(0, 7)]) alu =
    some (0, 0, { z := true, n := false, v := true }, 2) := by decide
theorem test_T36_jump_at_top : after (st 15 0 0 clear [(15, 8), (0, 5)]) regs = some (0, 0, 5, 8) := by decide
theorem test_T25_jumpZ_taken : after (st 6 0 0 onlyZ [(6, 9), (7, 9)]) regs = some (0, 0, 9, 9) := by decide
theorem test_T26_jumpZ_not_taken : after (st 6 0 0 clear [(6, 9), (7, 9)]) regs = some (0, 0, 8, 9) := by decide
theorem test_T27_jumpNZ_taken : after (st 8 0 0 clear [(8, 10), (9, 6)]) regs = some (0, 0, 6, 10) := by decide
theorem test_T28_jumpNZ_not_taken : after (st 8 0 0 onlyZ [(8, 10), (9, 6)]) regs = some (0, 0, 10, 10) := by decide
theorem test_T29_halt : after (st 12 7 2 clear []) (fun t => (regs t, t.halted)) = some ((7, 2, 13, 0), true) := by decide
theorem test_T33_halt_wraps : after (st 15 0 0 clear []) (fun t => (t.pc, t.halted)) = some (0, true) := by decide
theorem test_T31_unknown_F : after (st 1 8 0 clear [(1, 15)]) regs = some (8, 0, 2, 15) := by decide
theorem test_T32_unknown_B : after (st 0 0 0 clear [(0, 11), (1, 7)]) regs = some (0, 0, 1, 11) := by decide
theorem test_unknown_C_D_E :
    after (st 0 1 2 clear [(0, 12)]) regs = some (1, 2, 1, 12) ∧ after (st 0 1 2 clear [(0, 13)]) regs = some (1, 2, 1, 13) ∧
    after (st 0 1 2 clear [(0, 14)]) regs = some (1, 2, 1, 14) := by decide

/-- A table word placed after reset is what the next step runs. -/
theorem test_fetch_word : after (State.reset.withFetchWord 8 0x25) regs = some (5, 0, 2, 2) ∧
    after (State.reset.withFetchWord 8 0x0E) regs = some (0, 0, 1, 14) := by decide

/-- The storage bytes of the image of program P1 (`95_test_vectors.md` section 5). -/
theorem test_P1_image :
    (State.reset.loadProgram 0 [2, 2, 5, 1, 2, 5, 4, 13, 6, 1, 4, 14]).mem.image =
      [0x22, 0x51, 0x25, 0x4D, 0x61, 0x4E, 0x00, 0x00] := by decide

/-- The listing of P1's first lines assembles to its image, and a line reads as R83 writes it. -/
theorem test_P1_listing :
    assemble specEncoding [.instr (.loadAI 2), .instr (.mov .a .b), .instr (.loadAI 5), .instr (.storeA 13), .instr .halt,
      .word 7] = [2, 2, 5, 1, 2, 5, 4, 13, 0, 7] ∧
    AsmLine.text (.instr (.mov .a .b)) = some "Mov A, B" := by decide

/-- Writing back what an unlisted unit reads as leaves no cell. -/
theorem test_memory_canonical : ((State.reset.store 13 5).store 13 0).mem = [] ∧ (State.reset.store 13 5).mem = [(6, 0x05)] := by
  decide

/-! ## Witnesses: states and operands that meet the hypotheses of the statements -/

/-- A legal map other than the spec's: the register indices exchanged. -/
def exchanged : EncodingMap where
  code := specOpcodeNumber
  opcode := specOpcodeOf
  regCode
    | .a => 1
    | .b => 0
    | .reservedLo => 2
    | .reservedHi => 3
  regOperand f :=
    match f.toNat with
    | 0 => .b
    | 1 => .a
    | 2 => .reservedLo
    | _ => .reservedHi

theorem witness_legal_maps : specEncoding.Legal ∧ exchanged.Legal :=
  ⟨specEncoding_legal,
    { opcode_code := fun o => by cases o <;> rfl
      code_opcode := by decide
      regOperand_regCode := fun r => by cases r <;> rfl
      regCode_regOperand := by decide }⟩

theorem witness_EncodeOfDecode :
    specEncoding.Legal ∧ decodeWith specEncoding [7, 4, 0] = .instr (.sub .b .a) [0] := ⟨specEncoding_legal, by decide⟩

theorem witness_InstructionLength :
    specEncoding.opcode 0 = .halt ∧ UnrecognisedOpcode (specEncoding.opcode 11) ∧
    UnrecognisedOpcode (specEncoding.opcode 15) ∧
    ¬(specEncoding.opcode 10 = .halt ∨ UnrecognisedOpcode (specEncoding.opcode 10)) := by
  unfold UnrecognisedOpcode; decide

theorem witness_MemoryRoundTrip : (14 : Word) ≠ 15 ∧ (0 : Word) ≠ 1 := by decide

theorem witness_StorageUnitPacking : (0 : Nat) ≠ (7 : Fin 8).val ∧ (7 : Nat) ≠ (0 : Fin 8).val := by decide

theorem witness_CanonicalMemoriesEqual :
    Memory.wf [(0, 0x10)] = true ∧ (Memory.writeWord [] 0 1).wf = true ∧
    ∀ addr : Word, Memory.readWord [(0, 0x10)] addr = (Memory.writeWord [] 0 1).readWord addr := by decide

theorem witness_FreshMemoryIsZero : (MemComponent.construct 7).load 7 = some 0 := by decide

theorem witness_MemoryComponentCapacity :
    (7 : Word).toNat < (MemComponent.construct 7).capacity ∧ (15 : Word).toNat < (MemComponent.construct 17).capacity := by
  decide

/-- A state about to add 8 and 8. -/
def adding : State := st 0 8 8 clear [(0, 6), (1, 1)]

theorem witness_StepKeepsInvariant : adding.Inv ∧ ∃ t, step adding = .next t ∧ t.flags.z = true :=
  ⟨⟨by decide, by decide⟩, _, rfl, by decide⟩

theorem witness_HostMovesKeepInvariant :
    adding.Inv ∧ (∃ t, hostNext specEncoding (.store 5 17) adding = .next t ∧ t.load 1 = 5) ∧
    ∃ t, hostNext specEncoding .cycle adding = .next t ∧ t.a = 0 :=
  ⟨⟨by decide, by decide⟩, ⟨_, rfl, by decide⟩, _, rfl, by decide⟩

theorem witness_StepRunsDecodedInstruction :
    adding.halted = false ∧ decode [adding.load adding.pc, adding.load (adding.pc + 1)] = .instr (.add .a .b) [] ∧
    (st 15 0 0 clear [(0, 9)]).halted = false ∧
    decode [(st 15 0 0 clear [(0, 9)]).load 15, (st 15 0 0 clear [(0, 9)]).load (15 + 1)] = .instr .halt [9] := by decide

/-- A halted state. -/
def stopped : State := { adding with halted := true }

theorem witness_HaltedCycleChangesNothing : stopped.halted = true := rfl

/-- The operands of MovCopiesOneRegister, AddWritesSumAndFlags, SubWritesDifferenceAndFlags, CycleOfMov and
CycleOfAddAndSub name registers: both registers as first and as second operand. -/
theorem witness_Names : adding.Names .a 8 ∧ (st 0 1 15 clear []).Names .b 15 ∧ (st 0 1 15 clear []).Names .a 1 := by
  unfold State.Names; decide

theorem witness_ReservedIndexDoesNothing :
    RegOperand.reservedLo.named = false ∧ RegOperand.reservedHi.named = false := by decide

theorem witness_CycleOfLoads :
    (st 0 3 0 clear [(0, 1), (1, 14), (14, 7)]).AtTwoWords specEncoding .loadA 14 ∧
    (st 15 0 0 clear [(15, 2), (0, 8)]).AtTwoWords specEncoding .loadAI 8 ∧
    (st 2 4 1 clear [(2, 3), (3, 15)]).AtTwoWords specEncoding .loadB 15 := by
  unfold State.AtTwoWords; decide

theorem witness_CycleOfStoreA : (st 0 0 0 clear [(0, 4), (1, 1)]).AtTwoWords specEncoding .storeA 1 := by
  unfold State.AtTwoWords; decide

theorem witness_CycleOfMov :
    (st 2 2 7 clear [(2, 5), (3, 1)]).AtTwoWords specEncoding .mov 1 ∧
    (st 2 2 7 clear [(2, 5), (3, 1)]).Names (specEncoding.regOperand (unpackFields 1).1) 2 ∧
    specEncoding.regOperand (unpackFields 1).2 = .b ∧
    (st 0 2 7 clear [(0, 5), (1, 4)]).AtTwoWords specEncoding .mov 4 ∧
    (st 0 2 7 clear [(0, 5), (1, 4)]).Names (specEncoding.regOperand (unpackFields 4).1) 7 ∧
    specEncoding.regOperand (unpackFields 4).2 = .a := by
  unfold State.AtTwoWords State.Names; decide

theorem witness_CycleOfAddAndSub :
    adding.AtTwoWords specEncoding .add 1 ∧
    adding.Names (specEncoding.regOperand (unpackFields 1).1) 8 ∧
    adding.Names (specEncoding.regOperand (unpackFields 1).2) 8 ∧
    (st 6 5 2 clear [(6, 7), (7, 4)]).AtTwoWords specEncoding .sub 4 ∧
    (st 6 5 2 clear [(6, 7), (7, 4)]).Names (specEncoding.regOperand (unpackFields 4).1) 2 ∧
    (st 6 5 2 clear [(6, 7), (7, 4)]).Names (specEncoding.regOperand (unpackFields 4).2) 5 := by
  unfold State.AtTwoWords State.Names; decide

theorem witness_CycleOfJumps :
    (st 15 0 0 clear [(15, 8), (0, 5)]).AtTwoWords specEncoding .jump 5 ∧
    (st 6 0 0 onlyZ [(6, 9), (7, 9)]).AtTwoWords specEncoding .jumpZ 9 ∧
    (st 8 0 0 clear [(8, 10), (9, 6)]).AtTwoWords specEncoding .jumpNZ 6 := by
  unfold State.AtTwoWords; decide

theorem witness_CycleOfHalt : (st 15 7 2 clear []).AtOneWord specEncoding .halt := by
  unfold State.AtOneWord; decide

theorem witness_CycleOfUnrecognisedOpcode :
    UnrecognisedOpcode .unrecognisedB ∧ (st 0 0 0 clear [(0, 11), (1, 7)]).AtOneWord specEncoding .unrecognisedB ∧
    UnrecognisedOpcode .unrecognisedF ∧ (st 15 0 0 clear [(15, 15)]).AtOneWord specEncoding .unrecognisedF := by
  unfold State.AtOneWord UnrecognisedOpcode; decide

theorem witness_OnlyTheirWritersChangeRegisters :
    (∃ t, cycleWith specEncoding adding = .next t ∧ t.a ≠ adding.a) ∧
    (∃ t, cycleWith specEncoding (st 2 2 7 clear [(2, 5), (3, 1)]) = .next t ∧ t.b ≠ 7) ∧
    ∃ t, cycleWith specEncoding (st 0 2 7 clear [(0, 5), (1, 4)]) = .next t ∧ t.a ≠ 2 :=
  ⟨⟨_, rfl, by decide⟩, ⟨_, rfl, by decide⟩, _, rfl, by decide⟩

theorem witness_OnlyAddAndSubChangeFlagsAndRes :
    (∃ t, cycleWith specEncoding adding = .next t ∧ t.flags ≠ adding.flags) ∧
    ∃ t, cycleWith specEncoding (st 6 5 2 clear [(6, 7), (7, 4)]) = .next t ∧ t.res ≠ 0 :=
  ⟨⟨_, rfl, by decide⟩, _, rfl, by decide⟩

theorem witness_OnlyHaltHalts : ∃ t, cycleWith specEncoding (st 12 7 2 clear []) = .next t ∧ t.halted = true :=
  ⟨_, rfl, by decide⟩

theorem witness_OnlyStoreAChangesMemory :
    ∃ t, cycleWith specEncoding (st 6 5 0 clear [(6, 4), (7, 15)]) = .next t ∧ t.load 15 ≠ (st 6 5 0 clear [(6, 4), (7, 15)]).load 15 :=
  ⟨_, rfl, by decide⟩

theorem witness_ControlFlow : adding.halted = false ∧ ∃ t, cycleWith specEncoding adding = .next t ∧ t.pc = 2 :=
  ⟨rfl, _, rfl, by decide⟩

/-- `adding` with other values where nothing looks. -/
def addingHidden : State := { adding with is := 9, res := 3, flags := { z := false, n := true, v := true } }

theorem witness_HiddenStateNeverInfluences :
    SameToPrograms adding addingHidden ∧ adding ≠ addingHidden ∧ ∃ t, cycles specEncoding 2 adding = .next t ∧ t.halted = true :=
  ⟨⟨rfl, rfl, rfl, rfl, rfl, rfl⟩, by decide, _, rfl, by decide⟩

theorem witness_SelfModifyingCode :
    specEncoding.Legal ∧ (st 14 0 0 clear [(14, 4), (0, 8)]).AtTwoWords specEncoding .storeA 0 ∧
    ∃ t u, cycleWith specEncoding (st 14 0 0 clear [(14, 4), (0, 8)]) = .next t ∧ cycleWith specEncoding t = .next u ∧
      (0 : Word) = t.pc ∧ specEncoding.opcode (st 14 0 0 clear [(14, 4), (0, 8)]).a = .halt :=
  ⟨specEncoding_legal, by unfold State.AtTwoWords; decide, _, _, rfl, rfl, by decide, by decide⟩

theorem witness_RunEndsWithHaltCycle :
    adding.halted = false ∧ ∃ t, runWithin specEncoding 2 adding = some t ∧ t.pc = 3 := ⟨rfl, _, rfl, by decide⟩

/-- A state that is its own next state: `Jump 0` at address 0. -/
def looping : State := { st 0 0 0 clear [(0, 8)] with is := 8 }

theorem looping_cycle : cycleWith specEncoding looping = .next looping := rfl

theorem witness_EndlessRunRepeats : looping.mem.wf = true ∧ ∀ n, runWithin specEncoding n looping = none := by
  refine ⟨by decide, fun n => ?_⟩
  induction n with
  | zero => rfl
  | succ n ih =>
    have h : looping.halted = false := rfl
    simp [runWithin, h, looping_cycle, ih]

theorem witness_NibbleDivMod : uns 1 ≠ 0 ∧ uns 15 ≠ 0 := by decide

theorem witness_HostViewsReadOnly :
    HostMove.store 23 (-1) ≠ .construct ∧ HostMove.store 23 (-1) ≠ .cycle ∧
    ∃ t, hostNext specEncoding (.store 23 (-1)) adding = .next t ∧ t.load 15 = 7 :=
  ⟨by decide, by decide, _, rfl, by decide⟩

theorem witness_HostReachesOnlyMemory :
    HostMove.cycle ≠ .construct ∧ stopped.halted = true ∧ ∃ t, hostNext specEncoding .cycle stopped = .next t :=
  ⟨by decide, rfl, _, rfl⟩

theorem witness_ProgramLoading :
    ([2, 2, 0] : List Word).length ≤ 16 ∧ ([2, 2, 0] : List Word)[0]? = some 2 ∧ ([2, 2, 0] : List Word)[2]? = some 0 ∧
    ∀ i : Nat, i < 3 → (13 : Word) ≠ 14 + BitVec.ofNat 4 i := by decide

theorem witness_DiagnosticCycles :
    cycleDiag specEncoding (st 15 0 0 clear [(15, 15)]) = some .unknownOpcode ∧
    cycleDiag specEncoding (st 0 0 0 clear [(0, 6), (1, 2)]) = some .reservedRegister ∧
    cycleDiag specEncoding (st 0 0 0 clear [(0, 5), (1, 13)]) = some .reservedRegister ∧
    cycleDiag specEncoding adding = none := by decide

/-- Pins that request a cycle and a port write at once. -/
def bothRequests : PinsIn := { rst := false, step := true, mAddr := 1, mWdata := 2, mWe := true }

theorem witness_SignalRendering :
    bothRequests.rst = false ∧ bothRequests.step = true ∧
    { bothRequests with step := false }.mWe = true ∧ { bothRequests with step := false }.step = false ∧
    { bothRequests with step := false, mWe := false }.mWe = false ∧ { bothRequests with rst := true }.rst = true := by
  decide

end Sys2Proof.Tests
end

/-! Proofs: the execute stage, one equation per instruction, and the completion of every cycle. -/

namespace Sys2Proof.Machine

section ExecuteStage

variable (s : State) (k : Word) (f1 f2 src dest : RegOperand)

/-! ## What each instruction's execute action answers (`42_cpu_cycle.md` R155) -/

@[simp] theorem exec_halt : exec .halt s = .next s.halt := rfl
@[simp] theorem exec_loadA : exec (.loadA k) s = .next (s.writeReg .a (s.load k)) := rfl
@[simp] theorem exec_loadAI : exec (.loadAI k) s = .next (s.writeReg .a k) := rfl
@[simp] theorem exec_loadB : exec (.loadB k) s = .next (s.writeReg .b (s.load k)) := rfl
@[simp] theorem exec_storeA : exec (.storeA k) s = .next (s.store k s.a) := rfl
@[simp] theorem exec_mov : exec (.mov src dest) s =
    .next (s.withRegPair src dest fun r d => s.writeReg d (s.readReg r)) := rfl
@[simp] theorem exec_add : exec (.add f1 f2) s = .next (s.withRegPair f1 f2 (s.aluToA .add)) := rfl
@[simp] theorem exec_sub : exec (.sub f1 f2) s = .next (s.withRegPair f1 f2 (s.aluToA .sub)) := rfl
@[simp] theorem exec_jump : exec (.jump k) s = .next (s.setPc k) := rfl
@[simp] theorem exec_jumpZ : exec (.jumpZ k) s = .next (if s.flags.z then s.setPc k else s) := rfl
@[simp] theorem exec_jumpNZ : exec (.jumpNZ k) s = .next (if s.flags.z then s else s.setPc k) := rfl
@[simp] theorem exec_unrecognisedB : exec .unrecognisedB s = .next s := rfl
@[simp] theorem exec_unrecognisedC : exec .unrecognisedC s = .next s := rfl
@[simp] theorem exec_unrecognisedD : exec .unrecognisedD s = .next s := rfl
@[simp] theorem exec_unrecognisedE : exec .unrecognisedE s = .next s := rfl
@[simp] theorem exec_unrecognisedF : exec .unrecognisedF s = .next s := rfl

/-- No instruction faults or is refused, reserved and unrecognised ones included (`60_exceptions.md` R220). -/
theorem exec_completes (i : Instr) : ∃ t, exec i s = .next t := by
  cases i with
  | halt => exact ⟨_, exec_halt s⟩
  | loadA k => exact ⟨_, exec_loadA s k⟩
  | loadAI k => exact ⟨_, exec_loadAI s k⟩
  | loadB k => exact ⟨_, exec_loadB s k⟩
  | storeA k => exact ⟨_, exec_storeA s k⟩
  | mov src dest => exact ⟨_, exec_mov s src dest⟩
  | add f1 f2 => exact ⟨_, exec_add s f1 f2⟩
  | sub f1 f2 => exact ⟨_, exec_sub s f1 f2⟩
  | jump k => exact ⟨_, exec_jump s k⟩
  | jumpZ k => exact ⟨_, exec_jumpZ s k⟩
  | jumpNZ k => exact ⟨_, exec_jumpNZ s k⟩
  | unrecognisedB => exact ⟨_, exec_unrecognisedB s⟩
  | unrecognisedC => exact ⟨_, exec_unrecognisedC s⟩
  | unrecognisedD => exact ⟨_, exec_unrecognisedD s⟩
  | unrecognisedE => exact ⟨_, exec_unrecognisedE s⟩
  | unrecognisedF => exact ⟨_, exec_unrecognisedF s⟩

end ExecuteStage

/-- Settles O18: a halted machine answers its own state, a running one the state its execute action answers. -/
theorem everyCycleCompletes : Obligations.EveryCycleCompletes := by
  intro m s
  cases h : s.halted with
  | true => exact ⟨s, cycleWith_halted m h⟩
  | false =>
    rw [cycleWith_running m h]
    exact exec_completes (s.fetchInstr m).2 (s.fetchInstr m).1

end Sys2Proof.Machine


/-! Proofs: what writes the registers, the flags and `res`, and what no program can see (`10_state.md` R20 to R24). -/

namespace Sys2Proof.Machine

/-! ## The instruction a cycle runs -/

@[simp] theorem instrOf_opcode (m : EncodingMap) (op : Opcode) (k : Word) : (instrOf m op k).opcode = op := by
  cases op <;> rfl

@[simp] theorem State.fetchInstr_opcode (m : EncodingMap) (s : State) :
    (s.fetchInstr m).1.opcode = m.opcode (s.load s.pc) := by
  rw [State.fetchInstr_fst, instrOf_opcode]

/-- A fetched Mov has its destination in the low field of the word after the opcode word (`30_encoding.md` R73). -/
theorem State.fetchInstr_eq_mov {m : EncodingMap} {s : State} {src dest : RegOperand}
    (h : (s.fetchInstr m).1 = .mov src dest) :
    m.opcode (s.load s.pc) = .mov ∧ m.regOperand (unpackFields (s.load (s.pc + 1))).2 = dest := by
  have hop : m.opcode (s.load s.pc) = .mov := by rw [← State.fetchInstr_opcode, h]; rfl
  rw [State.fetchInstr_fst, hop] at h
  exact ⟨hop, (Instr.mov.inj h).2⟩

/-! ## The writers of the registers, the flags and `res` -/

/-- What is true of a state and of every state its action on two named registers gives is true of a register pair. -/
theorem State.withRegPair_induction {s : State} {f1 f2 : RegOperand} {act : Reg → Reg → State} (P : State → Prop)
    (skipped : P s) (run : ∀ r1 r2, registerOf f2 = some r2 → P (act r1 r2)) : P (s.withRegPair f1 f2 act) := by
  obtain ⟨r1, r2, -, h2, h⟩ | ⟨-, h⟩ := s.withRegPair_cases f1 f2 act
  · rw [h]; exact run r1 r2 h2
  · rw [h]; exact skipped

/-- What an instruction can do to A, B, the flags and `res` from `s` to `t` (the writers of `10_state.md` R20, R23,
R24). -/
inductive RegisterEffect (i : Instr) (s t : State) : Prop
  /-- none of them is written -/
  | kept (ha : t.a = s.a) (hb : t.b = s.b) (hflags : t.flags = s.flags) (hres : t.res = s.res)
  /-- only A is written -/
  | writesA (writer : i.opcode ∈ [Opcode.loadA, .loadAI] ∨ ∃ src, i = .mov src .a) (hb : t.b = s.b)
      (hflags : t.flags = s.flags) (hres : t.res = s.res)
  /-- only B is written -/
  | writesB (writer : i.opcode = .loadB ∨ ∃ src, i = .mov src .b) (ha : t.a = s.a)
      (hflags : t.flags = s.flags) (hres : t.res = s.res)
  /-- the ALU writes the flags and `res`, and `res` is copied to A -/
  | computes (writer : i.opcode ∈ [Opcode.add, .sub]) (hb : t.b = s.b) (hres : t.res = t.a)

/-- Mov writes the register its second operand names, if it writes at all (R174). -/
theorem RegisterEffect.of_mov (s : State) (src dest : RegOperand) :
    RegisterEffect (.mov src dest) s (s.withRegPair src dest fun r d => s.writeReg d (s.readReg r)) := by
  refine State.withRegPair_induction (RegisterEffect _ s) (.kept rfl rfl rfl rfl) fun r d hd => ?_
  cases dest with
  | a => cases hd; exact .writesA (.inr ⟨src, rfl⟩) rfl rfl rfl
  | b => cases hd; exact .writesB (.inr ⟨src, rfl⟩) rfl rfl rfl
  | reservedLo => cases hd
  | reservedHi => cases hd

/-- Add and Sub compute on two named registers or do nothing (R180, R181). -/
theorem RegisterEffect.of_alu {i : Instr} (hi : i.opcode ∈ [Opcode.add, .sub]) (s : State) (op : AluOp)
    (f1 f2 : RegOperand) : RegisterEffect i s (s.withRegPair f1 f2 (s.aluToA op)) :=
  State.withRegPair_induction (RegisterEffect i s) (.kept rfl rfl rfl rfl) fun _ _ _ => .computes hi rfl rfl

theorem exec_registerEffect {i : Instr} {s t : State} (h : exec i s = .next t) : RegisterEffect i s t := by
  cases i with
  | loadA k => cases h; exact .writesA (.inl (by simp [Instr.opcode])) rfl rfl rfl
  | loadAI k => cases h; exact .writesA (.inl (by simp [Instr.opcode])) rfl rfl rfl
  | loadB k => cases h; exact .writesB (.inl rfl) rfl rfl rfl
  | mov src dest => cases h; exact .of_mov s src dest
  | add f1 f2 => cases h; exact .of_alu (by simp [Instr.opcode]) s .add f1 f2
  | sub f1 f2 => cases h; exact .of_alu (by simp [Instr.opcode]) s .sub f1 f2
  | jumpZ | jumpNZ => cases h; split <;> exact .kept rfl rfl rfl rfl
  | halt | storeA | jump | unrecognisedB | unrecognisedC | unrecognisedD | unrecognisedE | unrecognisedF =>
    cases h; exact .kept rfl rfl rfl rfl

/-- A cycle does to the registers what the instruction at `pc` can do: the fetch writes only `is` and `pc`. -/
theorem cycleWith_registerEffect {m : EncodingMap} {s t : State} (h : cycleWith m s = .next t) :
    RegisterEffect (s.fetchInstr m).1 s t := by
  cases hs : s.halted with
  | true =>
    rw [cycleWith_halted m hs] at h
    cases h
    exact .kept rfl rfl rfl rfl
  | false =>
    rw [cycleWith_running m hs] at h
    have effect := exec_registerEffect h
    rw [State.fetchInstr_snd] at effect
    cases effect with
    | kept ha hb hflags hres => exact .kept ha hb hflags hres
    | writesA writer hb hflags hres => exact .writesA writer hb hflags hres
    | writesB writer ha hflags hres => exact .writesB writer ha hflags hres
    | computes writer hb hres => exact .computes writer hb hres

/-- Settles O35, by the four effects a cycle can have on the registers. -/
theorem onlyTheirWritersChangeRegisters : Obligations.OnlyTheirWritersChangeRegisters := by
  intro m s t h
  cases cycleWith_registerEffect h with
  | kept ha hb _ _ => exact ⟨fun h => absurd ha h, fun h => absurd hb h⟩
  | writesA writer hb _ _ =>
    refine ⟨fun _ => ?_, fun h => absurd hb h⟩
    obtain hop | ⟨src, hi⟩ := writer
    · rw [State.fetchInstr_opcode] at hop
      exact .inl (List.mem_append_left [Opcode.add, .sub] hop)
    · exact .inr (State.fetchInstr_eq_mov hi)
  | writesB writer ha _ _ =>
    refine ⟨fun h => absurd ha h, fun _ => ?_⟩
    obtain hop | ⟨src, hi⟩ := writer
    · exact .inl (State.fetchInstr_opcode m s ▸ hop)
    · exact .inr (State.fetchInstr_eq_mov hi)
  | computes writer hb _ =>
    rw [State.fetchInstr_opcode] at writer
    exact ⟨fun _ => .inl (List.mem_append_right [Opcode.loadA, .loadAI] writer), fun h => absurd hb h⟩

/-- Settles O36: of the four effects a cycle can have, only that of the ALU reaches the flags or `res`. -/
theorem onlyAddAndSubChangeFlagsAndRes : Obligations.OnlyAddAndSubChangeFlagsAndRes := by
  intro m s t h changed
  have unchanged_absurd (hflags : t.flags = s.flags) (hres : t.res = s.res) : False :=
    changed.elim (· hflags) (· hres)
  cases cycleWith_registerEffect h with
  | kept _ _ hflags hres => exact (unchanged_absurd hflags hres).elim
  | writesA _ _ hflags hres => exact (unchanged_absurd hflags hres).elim
  | writesB _ _ hflags hres => exact (unchanged_absurd hflags hres).elim
  | computes writer _ hres => exact ⟨State.fetchInstr_opcode m s ▸ writer, hres⟩

/-! ## States no program can tell apart

Every state operation takes two such states to two such states; so does a cycle, and so do any number of them. -/

namespace SameToPrograms

variable {s t : State}

theorem readReg (h : SameToPrograms s t) (r : Reg) : s.readReg r = t.readReg r := by
  obtain ⟨ha, hb, -⟩ := h
  cases r with
  | a => exact ha
  | b => exact hb

theorem load (h : SameToPrograms s t) (addr : Word) : s.load addr = t.load addr := by
  obtain ⟨-, -, -, -, -, hmem⟩ := h
  exact State.load_congr hmem addr

theorem writeReg (h : SameToPrograms s t) (r : Reg) (v : Word) : SameToPrograms (s.writeReg r v) (t.writeReg r v) := by
  obtain ⟨ha, hb, hrest⟩ := h
  cases r with
  | a => exact ⟨rfl, hb, hrest⟩
  | b => exact ⟨ha, rfl, hrest⟩

theorem store (h : SameToPrograms s t) (addr v : Word) : SameToPrograms (s.store addr v) (t.store addr v) := by
  obtain ⟨ha, hb, hpc, hhalted, hz, hmem⟩ := h
  exact ⟨ha, hb, hpc, hhalted, hz, congrArg (·.writeWord addr v) hmem⟩

theorem setPc (h : SameToPrograms s t) (target : Word) : SameToPrograms (s.setPc target) (t.setPc target) := by
  obtain ⟨ha, hb, -, hrest⟩ := h
  exact ⟨ha, hb, rfl, hrest⟩

theorem halt (h : SameToPrograms s t) : SameToPrograms s.halt t.halt := by
  obtain ⟨ha, hb, hpc, -, hrest⟩ := h
  exact ⟨ha, hb, hpc, rfl, hrest⟩

/-- The ALU's values are those of its operands alone (`41_alu_flags.md` R134). -/
theorem aluToA (h : SameToPrograms s t) (op : AluOp) (r1 r2 : Reg) :
    SameToPrograms (s.aluToA op r1 r2) (t.aluToA op r1 r2) := by
  rw [State.aluToA_eq, State.aluToA_eq, h.readReg r1, h.readReg r2]
  obtain ⟨-, hb, hpc, hhalted, -, hmem⟩ := h
  exact ⟨rfl, hb, hpc, hhalted, rfl, hmem⟩

theorem withRegPair (h : SameToPrograms s t) (f1 f2 : RegOperand) {act act' : Reg → Reg → State}
    (hact : ∀ r1 r2, SameToPrograms (act r1 r2) (act' r1 r2)) :
    SameToPrograms (s.withRegPair f1 f2 act) (t.withRegPair f1 f2 act') := by
  unfold State.withRegPair
  cases registerOf f1 with
  | none => cases registerOf f2 <;> exact h
  | some r1 =>
    cases registerOf f2 with
    | none => exact h
    | some r2 => exact hact r1 r2

/-- The two jumps that test Zero see the same Zero (R191, R192). -/
theorem ite_zero (h : SameToPrograms s t) {s1 t1 s2 t2 : State} (h1 : SameToPrograms s1 t1)
    (h2 : SameToPrograms s2 t2) :
    SameToPrograms (if s.flags.z then s1 else s2) (if t.flags.z then t1 else t2) := by
  obtain ⟨-, -, -, -, hz, -⟩ := h
  rw [hz]
  split
  · exact h1
  · exact h2

theorem exec (h : SameToPrograms s t) (i : Instr) :
    ∃ s' t', exec i s = .next s' ∧ exec i t = .next t' ∧ SameToPrograms s' t' := by
  cases i with
  | halt => exact ⟨_, _, rfl, rfl, h.halt⟩
  | loadA k => exact ⟨_, _, rfl, rfl, h.load k ▸ h.writeReg .a _⟩
  | loadAI k => exact ⟨_, _, rfl, rfl, h.writeReg .a k⟩
  | loadB k => exact ⟨_, _, rfl, rfl, h.load k ▸ h.writeReg .b _⟩
  | storeA k => exact ⟨_, _, rfl, rfl, h.readReg .a ▸ h.store k _⟩
  | mov src dest =>
    exact ⟨_, _, rfl, rfl, h.withRegPair src dest fun r d => h.readReg r ▸ h.writeReg d _⟩
  | add f1 f2 => exact ⟨_, _, rfl, rfl, h.withRegPair f1 f2 (h.aluToA .add)⟩
  | sub f1 f2 => exact ⟨_, _, rfl, rfl, h.withRegPair f1 f2 (h.aluToA .sub)⟩
  | jump k => exact ⟨_, _, rfl, rfl, h.setPc k⟩
  | jumpZ k => exact ⟨_, _, rfl, rfl, h.ite_zero (h.setPc k) h⟩
  | jumpNZ k => exact ⟨_, _, rfl, rfl, h.ite_zero h (h.setPc k)⟩
  | unrecognisedB | unrecognisedC | unrecognisedD | unrecognisedE | unrecognisedF => exact ⟨_, _, rfl, rfl, h⟩

theorem fetchInstr (h : SameToPrograms s t) (m : EncodingMap) :
    (s.fetchInstr m).1 = (t.fetchInstr m).1 ∧ SameToPrograms (s.fetchInstr m).2 (t.fetchInstr m).2 := by
  have hload := h.load
  obtain ⟨ha, hb, hpc, hrest⟩ := h
  rw [State.fetchInstr_fst, State.fetchInstr_fst, State.fetchInstr_snd, State.fetchInstr_snd]
  simp only [hload, hpc]
  exact ⟨trivial, ha, hb, rfl, hrest⟩

theorem cycleWith (h : SameToPrograms s t) (m : EncodingMap) :
    ∃ s' t', cycleWith m s = .next s' ∧ cycleWith m t = .next t' ∧ SameToPrograms s' t' := by
  have hhalted : s.halted = t.halted := by obtain ⟨-, -, -, hhalted, -⟩ := h; exact hhalted
  cases ht : t.halted with
  | true => exact ⟨s, t, cycleWith_halted m (hhalted.trans ht), cycleWith_halted m ht, h⟩
  | false =>
    obtain ⟨hinstr, hfetched⟩ := h.fetchInstr m
    rw [cycleWith_running m (hhalted.trans ht), cycleWith_running m ht, hinstr]
    exact hfetched.exec _

end SameToPrograms

/-- Settles O40, by induction on the number of cycles. -/
theorem hiddenStateNeverInfluences : Obligations.HiddenStateNeverInfluences := by
  intro m n
  induction n with
  | zero =>
    intro s t s' h hs
    cases hs
    exact ⟨t, rfl, h⟩
  | succ n ih =>
    intro s t s' h hs
    obtain ⟨s1, t1, hs1, ht1, h1⟩ := h.cycleWith m
    simp only [cycles, hs1] at hs
    simp only [cycles, ht1]
    exact ih s1 t1 s' h1 hs

end Sys2Proof.Machine


/-! Proofs: the words of a storage unit, and what a load finds after a store (`20_memory.md` R43 to R46, R53). -/

namespace Sys2Proof.Machine

/-! ## The word an address names in a unit -/

/-- `addr[3:1]` is the address halved (R44). -/
theorem unitOf_eq_toNat_div_two (addr : Word) : unitOf addr = addr.toNat / 2 := by
  have hlt : addr.toNat / 2 < 2 ^ 3 := by omega
  rw [unitOf, BitVec.extractLsb'_toNat, Nat.shiftRight_eq_div_pow, pow_one, Nat.mod_eq_of_lt hlt]

/-- The unit and the half of the unit say which address it is. -/
theorem eq_of_unitOf_eq_of_half_eq :
    ∀ a b : Word, unitOf a = unitOf b → a.getLsbD 0 = b.getLsbD 0 → a = b := by decide

theorem append_halves (u : Byte) : u.extractLsb' 4 4 ++ u.extractLsb' 0 4 = u :=
  (BitVec.extractLsb'_append_extractLsb'_eq_extractLsb' (start₁ := 0) (start₂ := 4) rfl).trans
    BitVec.extractLsb'_eq_self

@[simp] theorem wordOfUnit_unitWithWord_same (addr v : Word) (u : Byte) :
    wordOfUnit addr (unitWithWord addr v u) = v := by
  unfold wordOfUnit unitWithWord
  cases addr.getLsbD 0 with
  | true => exact BitVec.extractLsb'_append_eq_right
  | false => exact BitVec.extractLsb'_append_eq_left

/-- Replacing one word of a unit keeps the other word of it (R46). -/
theorem wordOfUnit_unitWithWord_other {addr other : Word} (hhalf : other.getLsbD 0 ≠ addr.getLsbD 0) (v : Word)
    (u : Byte) : wordOfUnit other (unitWithWord addr v u) = wordOfUnit other u := by
  unfold wordOfUnit unitWithWord
  cases ha : addr.getLsbD 0 with
  | true =>
    have ho : other.getLsbD 0 = false := Bool.eq_false_of_not_eq_true (ha ▸ hhalf)
    rw [ho]
    exact BitVec.extractLsb'_append_eq_left
  | false =>
    have ho : other.getLsbD 0 = true := Bool.eq_true_of_not_eq_false (ha ▸ hhalf)
    rw [ho]
    exact BitVec.extractLsb'_append_eq_right

@[simp] theorem wordOfUnit_unlisted (addr : Word) : wordOfUnit addr Memory.unlisted = 0 := by
  unfold wordOfUnit
  cases addr.getLsbD 0 <;> rfl

/-! ## Loads after stores -/

theorem Memory.readUnit_writeWord (m : Memory) (addr v : Word) (j : Nat) :
    (m.writeWord addr v).readUnit j =
      if j = unitOf addr then unitWithWord addr v (m.readUnit (unitOf addr)) else m.readUnit j :=
  Memory.readUnit_writeUnit m (unitOf addr) j _

@[simp] theorem State.load_store_same (s : State) (addr v : Word) : (s.store addr v).load addr = v := by
  simp [State.load, Memory.readWord, Memory.readUnit_writeWord]

theorem State.load_store_other (s : State) {addr other : Word} (h : other ≠ addr) (v : Word) :
    (s.store addr v).load other = s.load other := by
  simp only [State.load, State.store_mem, Memory.readWord, Memory.readUnit_writeWord]
  by_cases hunit : unitOf other = unitOf addr
  · have hhalf : other.getLsbD 0 ≠ addr.getLsbD 0 := fun hhalf => h (eq_of_unitOf_eq_of_half_eq _ _ hunit hhalf)
    rw [if_pos hunit, wordOfUnit_unitWithWord_other hhalf, hunit]
  · rw [if_neg hunit]

/-- Settles O6. -/
theorem memoryRoundTrip : Obligations.MemoryRoundTrip :=
  fun s addr v => ⟨s.load_store_same addr v, fun _ h => s.load_store_other h v⟩

/-! ## The two addresses of a unit (decision D10) -/

section UnitAddresses

variable (k : Fin 8) (v : Word) (u : Byte)

@[simp] theorem unitOf_even : unitOf (BitVec.ofNat 4 (2 * k.val)) = k.val := by
  rw [unitOf_eq_toNat_div_two, BitVec.toNat_ofNat]; omega

@[simp] theorem unitOf_odd : unitOf (BitVec.ofNat 4 (2 * k.val + 1)) = k.val := by
  rw [unitOf_eq_toNat_div_two, BitVec.toNat_ofNat]; omega

theorem half_even : (BitVec.ofNat 4 (2 * k.val)).getLsbD 0 = false := by
  rw [BitVec.getLsbD_ofNat]; simp

theorem half_odd : (BitVec.ofNat 4 (2 * k.val + 1)).getLsbD 0 = true := by
  rw [BitVec.getLsbD_ofNat]; simp

@[simp] theorem wordOfUnit_even : wordOfUnit (BitVec.ofNat 4 (2 * k.val)) u = u.extractLsb' 4 4 := by
  rw [wordOfUnit, half_even]; rfl

@[simp] theorem wordOfUnit_odd : wordOfUnit (BitVec.ofNat 4 (2 * k.val + 1)) u = u.extractLsb' 0 4 := by
  rw [wordOfUnit, half_odd]; rfl

@[simp] theorem unitWithWord_even :
    unitWithWord (BitVec.ofNat 4 (2 * k.val)) v u = (v ++ u.extractLsb' 0 4 : Byte) := by
  rw [unitWithWord, half_even]; rfl

@[simp] theorem unitWithWord_odd :
    unitWithWord (BitVec.ofNat 4 (2 * k.val + 1)) v u = (u.extractLsb' 4 4 ++ v : Byte) := by
  rw [unitWithWord, half_odd]; rfl

end UnitAddresses

/-- Settles O7: both addresses of a unit lie in it, each in its own half. -/
theorem storageUnitPacking : Obligations.StorageUnitPacking := by
  intro s k v even odd
  have load_even : s.load even = (s.mem.readUnit k).extractLsb' 4 4 := by simp [State.load, Memory.readWord, even]
  have load_odd : s.load odd = (s.mem.readUnit k).extractLsb' 0 4 := by simp [State.load, Memory.readWord, odd]
  rw [load_even, load_odd]
  simp only [State.store_mem, Memory.readUnit_writeWord]
  refine ⟨(append_halves _).symm, ?_, ?_, fun j hj => ⟨?_, ?_⟩⟩
  · simp [even]
  · simp [odd]
  · simp [even, hj]
  · simp [odd, hj]

/-! ## Fresh memory, and the memory component of any capacity (R54, R55) -/

section Component

variable {c : MemComponent} {n : Nat}

theorem MemComponent.load_construct {addr w : Word} (h : (MemComponent.construct n).load addr = some w) : w = 0 := by
  simp only [MemComponent.load, Option.map_eq_some_iff] at h
  obtain ⟨u, hu, rfl⟩ := h
  have hzero : u = Memory.unlisted := List.eq_of_mem_replicate (List.mem_of_getElem? hu)
  rw [hzero, wordOfUnit_unlisted]

theorem MemComponent.capacity_construct :
    (MemComponent.construct n).capacity = if n % 2 = 0 then n else n + 1 := by
  rw [MemComponent.capacity, MemComponent.construct, List.length_replicate]
  split <;> omega

theorem MemComponent.constructDiag_eq_some_iff :
    MemComponent.constructDiag n = some .memoryOverProvisioned ↔ 16 < n := by
  simp [MemComponent.constructDiag, Config.memWords]

/-- An address below the capacity lies in a unit of the component. -/
theorem MemComponent.getElem?_unitOf {addr : Word} (h : addr.toNat < c.capacity) : ∃ u, c.units[unitOf addr]? = some u := by
  have hunit : unitOf addr < c.units.length := by
    rw [unitOf_eq_toNat_div_two]
    rw [MemComponent.capacity] at h
    omega
  exact ⟨_, List.getElem?_eq_getElem hunit⟩

theorem MemComponent.load_eq_some {addr : Word} (h : addr.toNat < c.capacity) : ∃ w, c.load addr = some w := by
  obtain ⟨u, hu⟩ := MemComponent.getElem?_unitOf h
  exact ⟨wordOfUnit addr u, by rw [MemComponent.load, hu, Option.map_some]⟩

/-- A store at an address below the capacity reads back and keeps the capacity. -/
theorem MemComponent.store_eq_some {addr : Word} (h : addr.toNat < c.capacity) (v : Word) :
    ∃ d, c.store v addr = some d ∧ d.load addr = some v ∧ d.capacity = c.capacity := by
  obtain ⟨u, hu⟩ := MemComponent.getElem?_unitOf h
  have hunit : unitOf addr < c.units.length := (List.getElem?_eq_some_iff.mp hu).1
  refine ⟨⟨c.units.set (unitOf addr) (unitWithWord addr v u)⟩, ?_, ?_, ?_⟩
  · rw [MemComponent.store, hu, Option.map_some]
  · rw [MemComponent.load, List.getElem?_set_self hunit, Option.map_some, wordOfUnit_unitWithWord_same]
  · simp [MemComponent.capacity]

end Component

/-- Settles O9. -/
theorem freshMemoryIsZero : Obligations.FreshMemoryIsZero :=
  ⟨wordOfUnit_unlisted, Memory.readUnit_nil, fun _ _ _ => MemComponent.load_construct⟩

/-- Settles O10. -/
theorem memoryComponentCapacity : Obligations.MemoryComponentCapacity := fun _ =>
  ⟨MemComponent.capacity_construct, MemComponent.constructDiag_eq_some_iff, fun _ v h =>
    ⟨MemComponent.load_eq_some h, MemComponent.store_eq_some h v⟩⟩

/-- Settles O13. -/
theorem resetMeetsInvariant : Obligations.ResetMeetsInvariant :=
  ⟨Memory.wf_reset, fun ⟨hz, _⟩ => Bool.false_ne_true hz⟩

end Sys2Proof.Machine


/-! Proofs: the one writer of memory, and the fetch of a word just stored (`20_memory.md` R48, R52). -/

namespace Sys2Proof.Machine

/-! ## What an instruction does to memory -/

/-- Only StoreA writes memory: A, at its operand (R173). -/
theorem exec_mem {i : Instr} {s t : State} (h : exec i s = .next t) :
    t.mem = s.mem ∨ ∃ k, i = .storeA k ∧ t = s.store k s.a := by
  cases i with
  | storeA k => cases h; exact .inr ⟨k, rfl, rfl⟩
  | mov src dest =>
    cases h
    exact .inl (State.withRegPair_induction (·.mem = s.mem) rfl fun _ d _ => State.writeReg_mem s _ d)
  | add | sub => cases h; exact .inl (State.withRegPair_induction (·.mem = s.mem) rfl fun _ _ _ => rfl)
  | jumpZ | jumpNZ => cases h; split <;> exact .inl rfl
  | halt | loadA | loadAI | loadB | jump | unrecognisedB | unrecognisedC | unrecognisedD | unrecognisedE
    | unrecognisedF => cases h; exact .inl rfl

/-- A fetched StoreA has the word after the opcode word as its operand (`30_encoding.md` R72). -/
theorem State.fetchInstr_eq_storeA {m : EncodingMap} {s : State} {k : Word} (h : (s.fetchInstr m).1 = .storeA k) :
    m.opcode (s.load s.pc) = .storeA ∧ k = s.load (s.pc + 1) := by
  have hop : m.opcode (s.load s.pc) = .storeA := by rw [← State.fetchInstr_opcode, h]; rfl
  rw [State.fetchInstr_fst, hop] at h
  exact ⟨hop, (Instr.storeA.inj h).symm⟩

/-- A cycle leaves memory as it is or is a StoreA. -/
theorem cycleWith_mem {m : EncodingMap} {s t : State} (h : cycleWith m s = .next t) :
    t.mem = s.mem ∨
      m.opcode (s.load s.pc) = .storeA ∧ t.mem = (s.store (s.load (s.pc + 1)) s.a).mem := by
  cases hs : s.halted with
  | true =>
    rw [cycleWith_halted m hs] at h
    cases h
    exact .inl rfl
  | false =>
    rw [cycleWith_running m hs] at h
    have fetched := s.fetchInstr_snd m
    obtain hmem | ⟨k, hi, rfl⟩ := exec_mem h
    · exact .inl (by rw [hmem, fetched])
    · obtain ⟨hop, rfl⟩ := State.fetchInstr_eq_storeA hi
      exact .inr ⟨hop, by rw [fetched]; rfl⟩

/-- Settles O38: the only cycle that writes memory is a store, and a store changes no other address. -/
theorem onlyStoreAChangesMemory : Obligations.OnlyStoreAChangesMemory := by
  intro m s t h addr changed
  obtain hmem | ⟨hop, hmem⟩ := cycleWith_mem h
  · exact absurd (State.load_congr hmem addr) changed
  · rw [State.load_congr hmem] at changed ⊢
    have haddr : addr = s.load (s.pc + 1) := by
      by_contra hother
      exact changed (s.load_store_other hother s.a)
    exact ⟨hop, haddr, haddr ▸ s.load_store_same addr s.a⟩

/-! ## Cycles at a known instruction -/

/-- The cycle of a two-word instruction whose words stand at `pc`. -/
theorem State.AtTwoWords.cycleWith {m : EncodingMap} (hm : m.Legal) {s : State} {op : Opcode} {k : Word}
    (h : s.AtTwoWords m op k) (hop : op.hasOperand = true) :
    cycleWith m s = exec (instrOf m op k) (s.afterTwoWords m op) := by
  obtain ⟨hrunning, hcode, hoperand⟩ := h
  have hopcode : m.opcode (s.load s.pc) = op := by rw [hcode, hm.opcode_code]
  rw [cycleWith_running m hrunning, State.fetchInstr_fst, State.fetchInstr_snd, hopcode, hop, hcode, hoperand]
  rfl

/-- The cycle of a running machine whose next opcode word says Halt (R193). -/
theorem cycleWith_halt {m : EncodingMap} {s : State} (hrunning : s.halted = false)
    (hop : m.opcode (s.load s.pc) = .halt) :
    cycleWith m s = .next { s with is := s.load s.pc, pc := s.pc + 1, halted := true } := by
  rw [cycleWith_running m hrunning, State.fetchInstr_fst, State.fetchInstr_snd, hop]
  rfl

/-- No execute action writes `is` (`10_state.md` R22). -/
theorem exec_is {i : Instr} {s t : State} (h : exec i s = .next t) : t.is = s.is := by
  cases i with
  | mov src dest =>
    cases h
    exact State.withRegPair_induction (·.is = s.is) rfl fun _ d _ => State.writeReg_is s _ d
  | add | sub => cases h; exact State.withRegPair_induction (·.is = s.is) rfl fun _ _ _ => rfl
  | jumpZ | jumpNZ => cases h; split <;> rfl
  | halt | loadA | loadAI | loadB | storeA | jump | unrecognisedB | unrecognisedC | unrecognisedD | unrecognisedE
    | unrecognisedF => cases h; rfl

/-- After a running cycle `is` holds the word it fetched (`10_state.md` R22). -/
theorem cycleWith_is {m : EncodingMap} {s t : State} (hrunning : s.halted = false) (h : cycleWith m s = .next t) :
    t.is = s.load s.pc := by
  rw [cycleWith_running m hrunning] at h
  rw [exec_is h, State.fetchInstr_snd]

/-- Settles O41: the cycle after a StoreA is a running cycle on the stored memory. -/
theorem selfModifyingCode : Obligations.SelfModifyingCode := by
  intro m hm s t u k h hst htu
  have ht : t = (s.afterTwoWords m .storeA).store k s.a := by
    rw [h.cycleWith hm rfl] at hst
    cases hst
    rfl
  have hrunning : t.halted = false := by
    obtain ⟨hrunning, -⟩ := h
    rw [ht]
    exact hrunning
  have hload : t.load k = s.a := by rw [ht, State.load_store_same]
  refine ⟨hload, fun hk => ?_, fun hk hhalt => ?_⟩
  · rw [cycleWith_is hrunning htu, ← hk, hload]
  · have hop : m.opcode (t.load t.pc) = .halt := by rw [← hk, hload, hhalt]
    rw [cycleWith_halt hrunning hop] at htu
    cases htu
    rfl

end Sys2Proof.Machine


/-! Proofs: the register pair, the decoder and the encoder, and the cycle of a one-word opcode (`30_encoding.md` R70 to
R81). -/

namespace Sys2Proof

/-! ## The register pair (R77) -/

section RegisterPair

variable (w : Word) (f1 f2 : RegField)

theorem toNat_unpackFields_fst : (unpackFields w).1.toNat = w.toNat / 4 := by
  have hlt : w.toNat / 4 < 2 ^ 2 := by omega
  rw [unpackFields, BitVec.extractLsb'_toNat, Nat.shiftRight_eq_div_pow]
  exact Nat.mod_eq_of_lt hlt

theorem toNat_unpackFields_snd : (unpackFields w).2.toNat = w.toNat % 4 := by
  rw [unpackFields, BitVec.extractLsb'_toNat, Nat.shiftRight_zero]

@[simp] theorem unpackFields_packFields : unpackFields (packFields f1 f2) = (f1, f2) :=
  Prod.ext BitVec.extractLsb'_append_eq_left BitVec.extractLsb'_append_eq_right

@[simp] theorem packFields_unpackFields : packFields (unpackFields w).1 (unpackFields w).2 = w :=
  (BitVec.extractLsb'_append_extractLsb'_eq_extractLsb' (start₁ := 0) (start₂ := 2) rfl).trans
    BitVec.extractLsb'_eq_self

/-- The quotient and the remainder by 4 of a packed word are its two fields, so they give the word. -/
theorem toNat_packFields : (packFields f1 f2).toNat = f1.toNat * 4 + f2.toNat := by
  have hfst := toNat_unpackFields_fst (packFields f1 f2)
  have hsnd := toNat_unpackFields_snd (packFields f1 f2)
  simp only [unpackFields_packFields] at hfst hsnd
  omega

end RegisterPair

/-- Settles O5. -/
theorem registerPairPacking : Obligations.RegisterPairPacking :=
  ⟨fun w => ⟨toNat_unpackFields_fst w, toNat_unpackFields_snd w⟩,
    fun f1 f2 => ⟨toNat_packFields f1 f2, unpackFields_packFields f1 f2⟩,
    packFields_unpackFields, fun _ _ => ⟨rfl, rfl, rfl⟩⟩

/-! ## What the decoder answers: one equation for each form (R75) -/

section Decoder

variable {m : EncodingMap} {w : Word}

theorem decodeWith_nil : decodeWith m [] = .rejected .noOpcodeWord := rfl

theorem decodeWith_oneWord (h : (m.opcode w).hasOperand = false) (rest : List Word) :
    decodeWith m (w :: rest) = .instr (instrOf m (m.opcode w) 0) rest := by
  simp [decodeWith, h]

theorem decodeWith_noOperandWord (h : (m.opcode w).hasOperand = true) :
    decodeWith m [w] = .rejected .noOperandWord := by
  simp [decodeWith, h]

theorem decodeWith_twoWords (h : (m.opcode w).hasOperand = true) (k : Word) (rest : List Word) :
    decodeWith m (w :: k :: rest) = .instr (instrOf m (m.opcode w) k) rest := by
  simp [decodeWith, h]

/-- A list that decodes begins with a one-word opcode, or with a two-word opcode and its operand word. -/
theorem decodeWith_eq_instr {ws rest : List Word} {i : Instr} (h : decodeWith m ws = .instr i rest) :
    (∃ w, (m.opcode w).hasOperand = false ∧ ws = w :: rest ∧ i = instrOf m (m.opcode w) 0) ∨
      ∃ w k, (m.opcode w).hasOperand = true ∧ ws = w :: k :: rest ∧ i = instrOf m (m.opcode w) k := by
  cases ws with
  | nil => cases h
  | cons w ws =>
    cases hw : (m.opcode w).hasOperand with
    | false =>
      rw [decodeWith_oneWord hw] at h
      cases h
      exact .inl ⟨w, hw, rfl, rfl⟩
    | true =>
      cases ws with
      | nil =>
        rw [decodeWith_noOperandWord hw] at h
        cases h
      | cons k ws =>
        rw [decodeWith_twoWords hw] at h
        cases h
        exact .inr ⟨w, k, hw, rfl, rfl⟩

end Decoder

/-- The one-word opcodes are Halt and, by decision D5, the unrecognised ones (R75). -/
theorem Opcode.hasOperand_eq_false_iff {op : Opcode} :
    op.hasOperand = false ↔ op = .halt ∨ Machine.UnrecognisedOpcode op := by
  unfold Machine.UnrecognisedOpcode
  cases op <;> decide

/-- Settles O4: the opcode word alone picks the decoder's equation. -/
theorem instructionLength : Obligations.InstructionLength := by
  intro m w
  rw [← Opcode.hasOperand_eq_false_iff, Bool.not_eq_false]
  exact ⟨decodeWith_nil, fun hone => ⟨_, decodeWith_oneWord hone⟩,
    fun htwo => ⟨decodeWith_noOperandWord htwo, fun k => ⟨_, decodeWith_twoWords htwo k⟩⟩⟩

/-! ## Decoder and encoder (R70) -/

section RoundTrip

variable {m : EncodingMap} (hm : m.Legal)
include hm

/-- The operand words of a decoded instruction are the word it was decoded from, where its opcode takes one. -/
theorem operandWords_instrOf (op : Opcode) (k : Word) :
    operandWords m (instrOf m op k) = if op.hasOperand then [k] else [] := by
  cases op with
  | mov | add | sub => simp [instrOf, operandWords, Opcode.hasOperand, hm.regCode_regOperand]
  | halt | loadA | loadAI | loadB | storeA | jump | jumpZ | jumpNZ | unrecognisedB | unrecognisedC | unrecognisedD
    | unrecognisedE | unrecognisedF => rfl

theorem encodeWith_instrOf (op : Opcode) (k : Word) :
    encodeWith m (instrOf m op k) = m.code op :: if op.hasOperand then [k] else [] := by
  rw [encodeWith, opcode_instrOf, operandWords_instrOf hm]

/-- Every instruction, reserved forms included, is what its opcode makes of some operand word. -/
theorem exists_instrOf_eq (i : Instr) : ∃ k, instrOf m i.opcode k = i := by
  cases i with
  | loadA k | loadAI k | loadB k | storeA k | jump k | jumpZ k | jumpNZ k => exact ⟨k, rfl⟩
  | mov f1 f2 | add f1 f2 | sub f1 f2 =>
    exact ⟨packFields (m.regCode f1) (m.regCode f2), by simp [instrOf, Instr.opcode, hm.regOperand_regCode]⟩
  | halt | unrecognisedB | unrecognisedC | unrecognisedD | unrecognisedE | unrecognisedF => exact ⟨0, rfl⟩

end RoundTrip

/-- An opcode without an operand word does not look at the word after it (R75). -/
theorem instrOf_eq_of_oneWord {op : Opcode} (h : op.hasOperand = false) (m : EncodingMap) (j k : Word) :
    instrOf m op j = instrOf m op k := by
  cases op with
  | halt | unrecognisedB | unrecognisedC | unrecognisedD | unrecognisedE | unrecognisedF => rfl
  | loadA | loadAI | loadB | storeA | mov | add | sub | jump | jumpZ | jumpNZ => cases h

theorem decodeWith_encodeWith_instrOf {m : EncodingMap} (hm : m.Legal) (op : Opcode) (k : Word) (rest : List Word) :
    decodeWith m (encodeWith m (instrOf m op k) ++ rest) = .instr (instrOf m op k) rest := by
  obtain ⟨w, rfl⟩ : ∃ w, m.opcode w = op := ⟨m.code op, hm.opcode_code op⟩
  rw [encodeWith_instrOf hm, hm.code_opcode]
  cases hw : (m.opcode w).hasOperand with
  | false =>
    rw [instrOf_eq_of_oneWord hw m k 0]
    exact decodeWith_oneWord hw rest
  | true => exact decodeWith_twoWords hw k rest

/-- Settles O2: every instruction is its opcode's reading of an operand word, and such a reading decodes back. -/
theorem decodeOfEncode : Obligations.DecodeOfEncode := by
  intro m hm i rest
  obtain ⟨k, hi⟩ := exists_instrOf_eq hm i
  rw [← hi]
  exact decodeWith_encodeWith_instrOf hm i.opcode k rest

/-- Settles O3: the two ways a list can decode. -/
theorem encodeOfDecode : Obligations.EncodeOfDecode := by
  intro m hm ws rest i h
  obtain ⟨w, hw, rfl, rfl⟩ | ⟨w, k, hw, rfl, rfl⟩ := decodeWith_eq_instr h <;>
    rw [encodeWith_instrOf hm, hm.code_opcode, hw] <;> rfl

theorem decode_encode (i : Instr) (rest : List Word) : decode (encode i ++ rest) = .instr i rest :=
  decodeOfEncode specEncoding specEncoding_legal i rest

/-- Settles O1: each list written out is the words of its instruction and the words after them. -/
theorem writtenOutWordsDecode : Obligations.WrittenOutWordsDecode :=
  ⟨decode_encode .halt [], decode_encode (.loadA 14) [], decode_encode (.loadAI 5) [], decode_encode (.loadB 15) [],
    decode_encode (.storeA 13) [], decode_encode (.mov .a .b) [], decode_encode (.add .a .b) [],
    decode_encode (.add .reservedLo .reservedHi) [], decode_encode (.sub .b .a) [], decode_encode (.jump 12) [],
    decode_encode (.jumpZ 9) [], decode_encode (.jumpNZ 6) [], decode_encode .unrecognisedB [0b0111#4],
    decode_encode .unrecognisedF []⟩

end Sys2Proof

namespace Sys2Proof.Machine

/-! ## The cycle of a one-word opcode -/

/-- The cycle of a one-word instruction whose word stands at `pc`. -/
theorem State.AtOneWord.cycleWith {m : EncodingMap} (hm : m.Legal) {s : State} {op : Opcode}
    (h : s.AtOneWord m op) (hop : op.hasOperand = false) :
    cycleWith m s = exec (instrOf m op 0) { s with is := m.code op, pc := s.pc + 1 } := by
  obtain ⟨hrunning, hcode⟩ := h
  have hopcode : m.opcode (s.load s.pc) = op := by rw [hcode, hm.opcode_code]
  rw [cycleWith_running m hrunning, State.fetchInstr_fst, State.fetchInstr_snd, hopcode, hop, hcode]
  rfl

/-- The execute stage of an unrecognised opcode does nothing (`42_cpu_cycle.md` R156). -/
theorem exec_unrecognised {op : Opcode} (h : UnrecognisedOpcode op) (m : EncodingMap) (k : Word) (s : State) :
    exec (instrOf m op k) s = .next s := by
  simp only [UnrecognisedOpcode, List.mem_cons, List.not_mem_nil, or_false] at h
  obtain rfl | rfl | rfl | rfl | rfl := h <;> rfl

/-- Settles O34: the fetch takes the one word and the execute stage does nothing. -/
theorem cycleOfUnrecognisedOpcode : Obligations.CycleOfUnrecognisedOpcode := by
  intro m hm s op hop h
  rw [h.cycleWith hm (Opcode.hasOperand_eq_false_iff.mpr (.inr hop)), exec_unrecognised hop]

end Sys2Proof.Machine

/-! Proofs: construction of a nibble, its two views, and the masked operators (`40_nibble_unit.md`). -/

namespace Sys2Proof.Machine

/-! ## The unsigned view (R100, R101) -/

theorem uns_le_fifteen (v : Word) : uns v ≤ 15 := Nat.le_of_lt_succ v.isLt

/-- What a constructed nibble reads as: the remainder modulo 16, for any integer (R100). -/
theorem uns_nib (n : Int) : (uns (nib n) : Int) = n % 16 := by
  have h16 : ((2 ^ 4 : Nat) : Int) = 16 := rfl
  have hnonneg : 0 ≤ n % 16 := Int.emod_nonneg n (by decide)
  rw [uns, nib, BitVec.toNat_ofInt, h16, Int.toNat_of_nonneg hnonneg]

theorem uns_nib_natCast (n : Nat) : uns (nib n) = n % 16 := by
  have h := uns_nib n
  omega

theorem nib_uns (v : Word) : nib (uns v) = v := by
  rw [nib, uns, BitVec.ofInt_natCast, BitVec.ofNat_toNat, BitVec.setWidth_eq]

/-! ## The signed view (R102) -/

/-- The signed view is the two's complement value: bit 3 is the sign bit. -/
theorem sgn_eq_toInt (v : Word) : sgn v = v.toInt := by
  rw [BitVec.toInt_eq_msb_cond, BitVec.msb_eq_getLsbD_last]
  rfl

theorem nib_sgn (v : Word) : nib (sgn v) = v := by
  rw [sgn_eq_toInt, nib, BitVec.ofInt_toInt]

theorem neg_eight_le_sgn (v : Word) : -8 ≤ sgn v := by
  rw [sgn_eq_toInt]
  exact BitVec.le_toInt v

theorem sgn_le_seven (v : Word) : sgn v ≤ 7 := by
  rw [sgn_eq_toInt]
  exact Int.le_of_lt_add_one BitVec.toInt_lt

/-! ## Equality (R103) -/

theorem nibEq_eq_true_iff (a b : Word) : nibEq a b = true ↔ uns a = uns b := beq_iff_eq

/-- Settles O49: `uns_nib` for construction, the two's complement value for the signed view. -/
theorem nibbleConstructionAndViews : Obligations.NibbleConstructionAndViews :=
  ⟨uns_nib,
    fun v => ⟨uns_le_fifteen v, nib_uns v, nib_sgn v, neg_eight_le_sgn v, sgn_le_seven v, rfl⟩,
    nibEq_eq_true_iff⟩

/-! ## Add, subtract and multiply (R104 to R106) -/

theorem uns_nibAdd (a b : Word) : uns (nibAdd a b) = (uns a + uns b) % 16 := by
  rw [nibAdd, ← Int.natCast_add, uns_nib_natCast]

theorem uns_nibSub (a b : Word) : (uns (nibSub a b) : Int) = ((uns a : Int) - uns b) % 16 :=
  uns_nib ((uns a : Int) - uns b)

theorem uns_nibMul (a b : Word) : uns (nibMul a b) = uns a * uns b % 16 := by
  rw [nibMul, ← Int.natCast_mul, uns_nib_natCast]

/-- Settles O50: each operator constructs a nibble from an integer, which reads as the remainder modulo 16. -/
theorem nibbleAddSubMul : Obligations.NibbleAddSubMul :=
  fun a b => ⟨uns_nibAdd a b, uns_nibSub a b, uns_nibMul a b⟩

end Sys2Proof.Machine

/-! Proofs: the ALU's result and flags (`41_alu_flags.md`), and the invariant of the machine. -/

namespace Sys2Proof.Machine

/-! ## The invariant (R137, R140; memory in canonical form) -/

/-- An execute action leaves the flags as they are or sets them to those of one ALU operation (R130, R134). -/
theorem exec_flags {i : Instr} {s t : State} (h : exec i s = .next t) :
    t.flags = s.flags ∨ ∃ op x y, t.flags = aluFlags op x y := by
  cases i with
  | mov src dest =>
    cases h
    exact .inl (State.withRegPair_induction (·.flags = s.flags) rfl fun _ d _ => State.writeReg_flags s _ d)
  | add | sub =>
    cases h
    exact State.withRegPair_induction (fun u => u.flags = s.flags ∨ ∃ op x y, u.flags = aluFlags op x y)
      (.inl rfl) fun _ _ _ => .inr ⟨_, _, _, rfl⟩
  | jumpZ | jumpNZ => cases h; split <;> exact .inl rfl
  | halt | loadA | loadAI | loadB | storeA | jump | unrecognisedB | unrecognisedC | unrecognisedD | unrecognisedE
    | unrecognisedF => cases h; exact .inl rfl

namespace State.Inv

variable {s t : State}

/-- A store from the CPU or from the host keeps the invariant. -/
theorem store (h : s.Inv) (addr v : Word) : (s.store addr v).Inv := by
  obtain ⟨hmem, hflags⟩ := h
  exact ⟨Memory.wf_writeWord hmem addr v, hflags⟩

/-- The fetch writes neither memory nor the flags. -/
theorem fetchInstr (h : s.Inv) (m : EncodingMap) : (s.fetchInstr m).2.Inv := by
  rw [State.fetchInstr_snd]
  exact h

/-- Memory is kept or stored to; the flags are kept or those of one ALU operation. -/
theorem exec (h : s.Inv) {i : Instr} (hexec : exec i s = .next t) : t.Inv := by
  obtain ⟨hmem, hflags⟩ := h
  constructor
  · obtain heq | ⟨k, -, rfl⟩ := exec_mem hexec
    · rw [heq]; exact hmem
    · exact Memory.wf_writeWord hmem k s.a
  · obtain heq | ⟨op, x, y, heq⟩ := exec_flags hexec
    · rw [heq]; exact hflags
    · rw [heq]; exact aluFlags_zero_negative op x y

theorem cycleWith (h : s.Inv) {m : EncodingMap} (hcycle : cycleWith m s = .next t) : t.Inv := by
  cases hs : s.halted with
  | true =>
    rw [cycleWith_halted m hs] at hcycle
    cases hcycle
    exact h
  | false =>
    rw [cycleWith_running m hs] at hcycle
    exact (h.fetchInstr m).exec hcycle

end State.Inv

/-- Settles O14: a step is a cycle under the spec's encoding map, and every cycle keeps the invariant. -/
theorem stepKeepsInvariant : Obligations.StepKeepsInvariant :=
  fun _ _ hinv hstep => hinv.cycleWith hstep

/-- Settles O15: of the host's operations only construction, a cycle and a store change the state. -/
theorem hostMovesKeepInvariant : Obligations.HostMovesKeepInvariant := by
  intro m move s t hinv hnext
  cases move with
  | construct => cases hnext; exact resetMeetsInvariant
  | cycle => exact hinv.cycleWith hnext
  | store value addr => cases hnext; exact hinv.store (nib addr) (nib value)
  | viewA | viewB | viewFlags | viewHalted | load | capacity => cases hnext; exact hinv

/-! ## The flags of an operation (R134 to R137) -/

theorem zeroFlag_eq_true_iff (r : Word) : zeroFlag r = true ↔ r = 0 := beq_iff_eq

/-- Settles O46: the flags written are those of the result written, whatever the state. -/
theorem zeroAndNegativeOfResult : Obligations.ZeroAndNegativeOfResult :=
  fun _ _ op a b => ⟨zeroFlag_eq_true_iff (aluResult op a b), Iff.rfl, rfl⟩

/-! ## The carry chain (R131 to R133) -/

/-- The nibble unit's subtraction as BitVec arithmetic, beside `nibAdd_eq`. -/
theorem nibSub_eq (a b : Word) : nibSub a b = a - b := by
  rw [nibSub, nib, uns, uns, Int.sub_eq_add_neg, BitVec.ofInt_add, BitVec.ofInt_neg, BitVec.ofInt_natCast,
    BitVec.ofInt_natCast, BitVec.ofNat_toNat, BitVec.ofNat_toNat, BitVec.setWidth_eq, BitVec.setWidth_eq,
    BitVec.sub_eq_add_neg]

theorem rippleAdd_eq_nibAdd (a b : Word) : rippleAdd a b = nibAdd a b := by
  rw [rippleAdd_eq_add, nibAdd_eq]

/-- Settles O47: the carry chain is the nibble unit's addition, and Sub adds `~b + 1` by it. -/
theorem rippleAddAndSub : Obligations.RippleAddAndSub := by
  intro a b
  have hsum : uns (rippleAdd a b) = (uns a + uns b) % 16 := by rw [rippleAdd_eq_nibAdd, uns_nibAdd]
  have hdiff : aluResult .sub a b = nibSub a b := by rw [aluResult_sub, nibSub_eq]
  exact ⟨hsum, rippleAdd_eq_nibAdd a b, rfl, hdiff⟩

end Sys2Proof.Machine

/-! Proofs: what a cycle runs and when it halts, and how `Run` ends or fails to (`42_cpu_cycle.md` R150 to R159). -/

namespace Sys2Proof.Machine

/-! ## What a cycle runs, and when it halts (R150 to R154) -/

/-- Settles O16: the decoder and the fetch read the same words, and a word is left over exactly when the opcode takes
one word. -/
theorem stepRunsDecodedInstruction : Obligations.StepRunsDecodedInstruction := by
  intro s i rest hrunning hdecode
  rw [step, cycleWith_running specEncoding hrunning, State.fetchInstr_fst, State.fetchInstr_snd]
  cases hop : (specEncoding.opcode (s.load s.pc)).hasOperand with
  | false =>
    rw [decode, decodeWith_oneWord hop] at hdecode
    cases hdecode
    rfl
  | true =>
    rw [decode, decodeWith_twoWords hop] at hdecode
    cases hdecode
    rfl

/-- No execute action but Halt's writes the halt flag (`10_state.md` R26). -/
theorem exec_halted_of_ne_halt {i : Instr} {s t : State} (hi : i.opcode ≠ .halt) (h : exec i s = .next t) :
    t.halted = s.halted := by
  cases i with
  | halt => exact absurd rfl hi
  | mov src dest =>
    cases h
    exact State.withRegPair_induction (·.halted = s.halted) rfl fun _ d _ => State.writeReg_halted s _ d
  | add | sub => cases h; exact State.withRegPair_induction (·.halted = s.halted) rfl fun _ _ _ => rfl
  | jumpZ | jumpNZ => cases h; split <;> rfl
  | loadA | loadAI | loadB | storeA | jump | unrecognisedB | unrecognisedC | unrecognisedD | unrecognisedE
    | unrecognisedF => cases h; rfl

/-- A running cycle ends halted exactly if the opcode word says Halt. -/
theorem cycleWith_halted_iff {m : EncodingMap} {s t : State} (hrunning : s.halted = false)
    (h : cycleWith m s = .next t) : t.halted = true ↔ m.opcode (s.load s.pc) = .halt := by
  by_cases hop : m.opcode (s.load s.pc) = .halt
  · rw [cycleWith_halt hrunning hop] at h
    cases h
    simp [hop]
  · rw [cycleWith_running m hrunning] at h
    have kept := exec_halted_of_ne_halt (by rwa [State.fetchInstr_opcode]) h
    rw [State.fetchInstr_snd] at kept
    simp [kept, hrunning, hop]

/-- Settles O37: a halted machine stays as it is, a running one is halted by Halt alone. -/
theorem onlyHaltHalts : Obligations.OnlyHaltHalts := by
  intro m s t h
  cases hs : s.halted with
  | true =>
    rw [cycleWith_halted m hs] at h
    cases h
    simp [hs]
  | false => simp [cycleWith_halted_iff hs h]

/-! ## Several cycles -/

section Cycles

variable {m : EncodingMap} {s t u : State}

theorem cycles_zero_eq_next_iff : cycles m 0 s = .next t ↔ s = t := by simp [cycles]

theorem cycles_succ (h : cycleWith m s = .next u) (n : Nat) : cycles m (n + 1) s = cycles m n u := by
  simp [cycles, h]

/-- Any number of cycles completes, because each does (`60_exceptions.md` R220). -/
theorem cycles_complete (m : EncodingMap) (n : Nat) (s : State) : ∃ t, cycles m n s = .next t := by
  induction n generalizing s with
  | zero => exact ⟨s, rfl⟩
  | succ n ih =>
    obtain ⟨u, hu⟩ := everyCycleCompletes m s
    rw [cycles_succ hu]
    exact ih u

theorem cycles_add {i : Nat} (h : cycles m i s = .next u) (p : Nat) : cycles m (i + p) s = cycles m p u := by
  induction i generalizing s with
  | zero =>
    cases h
    rw [Nat.zero_add]
  | succ i ih =>
    obtain ⟨v, hv⟩ := everyCycleCompletes m s
    rw [cycles_succ hv] at h
    rw [Nat.add_right_comm, cycles_succ hv]
    exact ih h

/-- The last of several cycles is the cycle from the state before it. -/
theorem cycles_succ_last {k : Nat} (h : cycles m k s = .next u) : cycles m (k + 1) s = cycleWith m u := by
  obtain ⟨t, ht⟩ := everyCycleCompletes m u
  rw [cycles_add h, cycles_succ ht, ht]
  rfl

end Cycles

/-! ## Where `Run` returns (R157) -/

/-- `t` is the first halted state of the run from `s`, and it is reached after `k` cycles. -/
def FirstHalted (m : EncodingMap) (k : Nat) (s t : State) : Prop :=
  cycles m k s = .next t ∧ t.halted = true ∧ ∀ j, j < k → ∃ u, cycles m j s = .next u ∧ u.halted = false

section Run

variable {m : EncodingMap} {s t u : State} {n k : Nat}

theorem runWithin_of_halted (h : s.halted = true) (m : EncodingMap) (n : Nat) : runWithin m n s = some s := by
  cases n with
  | zero => simp [runWithin, h]
  | succ n => simp [runWithin, h]

theorem runWithin_zero_eq_some_iff : runWithin m 0 s = some t ↔ s = t ∧ t.halted = true := by
  simp only [runWithin, Option.ite_none_right_eq_some, Option.some.injEq, and_comm (a := s.halted = true)]
  exact and_congr_right fun h => h ▸ Iff.rfl

theorem runWithin_succ_of_running (h : s.halted = false) (hcycle : cycleWith m s = .next u) :
    runWithin m (n + 1) s = runWithin m n u := by
  simp [runWithin, h, hcycle]

/-- A run that has not begun can only return in the state it stands in. -/
theorem firstHalted_zero_iff : FirstHalted m 0 s t ↔ s = t ∧ t.halted = true := by
  simp [FirstHalted, cycles_zero_eq_next_iff]

/-- The first halted state after one more cycle is that of the run from the next state. -/
theorem firstHalted_succ_iff (hcycle : cycleWith m s = .next u) :
    FirstHalted m (k + 1) s t ↔ s.halted = false ∧ FirstHalted m k u t := by
  simp only [FirstHalted, cycles_succ hcycle, Nat.forall_lt_succ_left', cycles_zero_eq_next_iff, exists_eq_left']
  tauto

/-- A run from a halted state returns there at once. -/
theorem firstHalted_iff_of_halted (h : s.halted = true) : FirstHalted m k s t ↔ k = 0 ∧ s = t := by
  obtain ⟨u, hu⟩ := everyCycleCompletes m s
  cases k with
  | zero =>
    rw [firstHalted_zero_iff]
    exact ⟨fun ⟨hst, _⟩ => ⟨rfl, hst⟩, fun ⟨_, hst⟩ => ⟨hst, hst ▸ h⟩⟩
  | succ k => simp [firstHalted_succ_iff hu, h]

end Run

/-- Settles O42, by induction on the bound: a halted state is returned at once, and from a running state the run goes on
from the next one. -/
theorem runStopsAtFirstHaltedState : Obligations.RunStopsAtFirstHaltedState := by
  intro m n s t
  change runWithin m n s = some t ↔ ∃ k, k ≤ n ∧ FirstHalted m k s t
  induction n generalizing s with
  | zero => simp [runWithin_zero_eq_some_iff, firstHalted_zero_iff]
  | succ n ih =>
    cases h : s.halted with
    | true => simp [runWithin_of_halted h, firstHalted_iff_of_halted h]
    | false =>
      obtain ⟨u, hu⟩ := everyCycleCompletes m s
      rw [runWithin_succ_of_running h hu, ih u]
      constructor
      · rintro ⟨k, hk, hfirst⟩
        exact ⟨k + 1, Nat.succ_le_succ hk, (firstHalted_succ_iff hu).mpr ⟨h, hfirst⟩⟩
      · rintro ⟨k, hk, hfirst⟩
        cases k with
        | zero =>
          obtain ⟨rfl, ht⟩ := firstHalted_zero_iff.mp hfirst
          exact absurd ht (Bool.eq_false_iff.mp h)
        | succ k => exact ⟨k, Nat.le_of_succ_le_succ hk, ((firstHalted_succ_iff hu).mp hfirst).2⟩

/-- Settles O43: the cycle before the first halted state is a cycle of a running machine that halts. -/
theorem runEndsWithHaltCycle : Obligations.RunEndsWithHaltCycle := by
  intro m n s t hs hrun
  obtain ⟨k, -, hk, ht, hbefore⟩ := (runStopsAtFirstHaltedState m n s t).mp hrun
  cases k with
  | zero =>
    cases hk
    exact absurd ht (Bool.eq_false_iff.mp hs)
  | succ k =>
    obtain ⟨u, hu, hrunning⟩ := hbefore k k.lt_succ_self
    rw [cycles_succ_last hu] at hk
    have hop := (cycleWith_halted_iff hrunning hk).mp ht
    rw [cycleWith_halt hrunning hop] at hk
    cases hk
    exact ⟨k, u, hu, hrunning, hop, rfl⟩

/-! ## The states with a canonical memory are finitely many -/

/-- By induction on the number `n` of units from `lo` on: a canonical list is empty, or an existing
unit's cell before a list that is canonical from the next unit on. -/
theorem Memory.finite_wfFrom (n lo : Nat) (hlo : Config.memUnits ≤ lo + n) :
    {mem : Memory | Memory.wfFrom lo mem = true}.Finite := by
  have cells : {c : Host.Cell | c.1 < Config.memUnits}.Finite :=
    ((Set.finite_Iio Config.memUnits).prod Set.finite_univ).subset fun c hc => ⟨hc, trivial⟩
  induction n generalizing lo with
  | zero =>
    refine (Set.finite_singleton []).subset fun mem hmem => ?_
    cases mem with
    | nil => rfl
    | cons c rest =>
      obtain ⟨hle, hlt, -⟩ := Memory.wfFrom_cons.mp hmem
      omega
  | succ n ih =>
    have longer := cells.image2 List.cons (ih (lo + 1) (by omega))
    refine ((Set.finite_singleton []).union longer).subset fun mem hmem => ?_
    cases mem with
    | nil => exact .inl rfl
    | cons c rest =>
      obtain ⟨hle, hlt, -, hrest⟩ := Memory.wfFrom_cons.mp hmem
      exact .inr ⟨c, hlt, rest, Memory.wfFrom_mono hrest (Nat.succ_le_succ hle), rfl⟩

/-- The fields of a state but for its memory: 24 bits, so they have finitely many values (`10_state.md` R27). -/
def State.registers (s : State) : Word × Word × Word × Word × Word × Bool × Bool × Bool × Bool :=
  (s.a, s.b, s.pc, s.is, s.res, s.halted, s.flags.z, s.flags.n, s.flags.v)

theorem State.eq_of_registers_eq_of_mem_eq {s t : State} (hregisters : s.registers = t.registers)
    (hmem : s.mem = t.mem) : s = t := by
  obtain ⟨_, _, _, _, _, _, ⟨_, _, _⟩, _⟩ := s
  obtain ⟨_, _, _, _, _, _, ⟨_, _, _⟩, _⟩ := t
  simp_all [State.registers]

theorem State.finite_wf : {s : State | s.mem.wf = true}.Finite := by
  have values := (Set.finite_univ (α := Word × Word × Word × Word × Word × Bool × Bool × Bool × Bool)).prod
    (Memory.finite_wfFrom Config.memUnits 0 (Nat.zero_add _).ge)
  have injective : Function.Injective fun s : State => (s.registers, s.mem) := fun s t h =>
    State.eq_of_registers_eq_of_mem_eq (Prod.mk.inj h).1 (Prod.mk.inj h).2
  exact (values.preimage injective.injOn).subset fun s hs => ⟨trivial, hs⟩

/-! ## A run that never ends (R159) -/

theorem cycleWith_wf {m : EncodingMap} {s t : State} (hs : s.mem.wf = true) (h : cycleWith m s = .next t) :
    t.mem.wf = true := by
  obtain hmem | ⟨-, hmem⟩ := cycleWith_mem h
  · rwa [hmem]
  · rw [hmem]
    exact Memory.wf_writeWord hs _ _

theorem cycles_wf {m : EncodingMap} {n : Nat} {s t : State} (hs : s.mem.wf = true) (h : cycles m n s = .next t) :
    t.mem.wf = true := by
  induction n generalizing s with
  | zero =>
    cases h
    exact hs
  | succ n ih =>
    obtain ⟨u, hu⟩ := everyCycleCompletes m s
    rw [cycles_succ hu] at h
    exact ih (cycleWith_wf hs hu) h

/-- A run that does not return within `n` cycles is still running after `n` cycles. -/
theorem running_of_runWithin_eq_none {m : EncodingMap} {n : Nat} {s t : State} (hrun : runWithin m n s = none)
    (h : cycles m n s = .next t) : t.halted = false := by
  induction n generalizing s with
  | zero =>
    cases h
    simpa [runWithin] using hrun
  | succ n ih =>
    obtain ⟨u, hu⟩ := everyCycleCompletes m s
    cases hs : s.halted with
    | true => simp [runWithin_of_halted hs] at hrun
    | false =>
      rw [runWithin_succ_of_running hs hu] at hrun
      rw [cycles_succ hu] at h
      exact ih hrun h

/-- Settles O44: the states of the run lie in a finite set, so two of them are equal. -/
theorem endlessRunRepeats : Obligations.EndlessRunRepeats := by
  intro m s hwf hendless
  choose state hstate using fun n => cycles_complete m n s
  obtain ⟨i, j, hij, heq⟩ := Set.Finite.exists_lt_map_eq_of_forall_mem (f := state)
    (fun n => cycles_wf hwf (hstate n)) State.finite_wf
  have hloop : cycles m (i + (j - i)) s = .next (state i) := by
    rw [Nat.add_sub_cancel' hij.le, hstate j, heq]
  rw [cycles_add (hstate i)] at hloop
  exact ⟨i, j - i, state i, Nat.sub_pos_of_lt hij, hstate i,
    running_of_runWithin_eq_none (hendless i) (hstate i), hloop⟩

end Sys2Proof.Machine


/-! Proofs: LoadA, LoadAI, LoadB, StoreA and Mov, their execute actions and their whole cycles
(`43_data_movement.md`). -/

namespace Sys2Proof.Machine

/-! ## The registers a sub-field names (`30_encoding.md` R79) -/

/-- A sub-field that names a register of value `x` picks a register that reads as `x`. -/
theorem State.Names.exists_reg {s : State} {f : RegOperand} {x : Word} (h : s.Names f x) :
    ∃ r, registerOf f = some r ∧ s.readReg r = x := by
  obtain ⟨rfl, rfl⟩ | ⟨rfl, rfl⟩ := h
  · exact ⟨.a, rfl, rfl⟩
  · exact ⟨.b, rfl, rfl⟩

theorem State.withRegPair_of_named {s : State} {f1 f2 : RegOperand} {r1 r2 : Reg} (h1 : registerOf f1 = some r1)
    (h2 : registerOf f2 = some r2) (act : Reg → Reg → State) : s.withRegPair f1 f2 act = act r1 r2 := by
  rw [State.withRegPair, h1, h2]

/-! ## The state after a two-word fetch -/

/-- The fetch leaves memory alone. -/
@[simp] theorem State.load_afterTwoWords (m : EncodingMap) (s : State) (op : Opcode) (addr : Word) :
    (s.afterTwoWords m op).load addr = s.load addr := rfl

/-- The fetch leaves the registers alone. -/
theorem State.Names.afterTwoWords {s : State} {f : RegOperand} {x : Word} (h : s.Names f x) (m : EncodingMap)
    (op : Opcode) : (s.afterTwoWords m op).Names f x := h

/-! ## The execute actions (R170 to R174) -/

/-- Settles O19: writing one register is the update of its field. -/
theorem loadsWriteOneRegister : Obligations.LoadsWriteOneRegister :=
  fun k s => ⟨exec_loadA s k, exec_loadAI s k, exec_loadB s k⟩

/-- Settles O20: the state with A stored at the operand. -/
theorem storeAWritesOneWord : Obligations.StoreAWritesOneWord :=
  fun k s => ⟨s.store k s.a, exec_storeA s k, rfl, s.load_store_same k s.a, fun _ h => s.load_store_other h s.a⟩

/-- Mov between named registers writes the source's value to the destination. -/
theorem exec_mov_of_names {s : State} {src dest : RegOperand} {x : Word} {d : Reg} (hsrc : s.Names src x)
    (hdest : registerOf dest = some d) : exec (.mov src dest) s = .next (s.writeReg d x) := by
  obtain ⟨r, hr, rfl⟩ := hsrc.exists_reg
  rw [exec_mov, State.withRegPair_of_named hr hdest]

/-- Settles O21. -/
theorem movCopiesOneRegister : Obligations.MovCopiesOneRegister :=
  fun _ _ _ hsrc => ⟨exec_mov_of_names (d := .a) hsrc rfl, exec_mov_of_names (d := .b) hsrc rfl⟩

/-! ## The whole cycles (R170 to R174) -/

/-- Settles O28: the execute action reads the memory that stood there before the fetch. -/
theorem cycleOfLoads : Obligations.CycleOfLoads := by
  intro m hm s k
  refine ⟨fun h => ?_, fun h => ?_, fun h => ?_⟩
  · rw [h.cycleWith hm rfl, instrOf, exec_loadA, State.load_afterTwoWords]
    rfl
  · rw [h.cycleWith hm rfl, instrOf, exec_loadAI]
    rfl
  · rw [h.cycleWith hm rfl, instrOf, exec_loadB, State.load_afterTwoWords]
    rfl

/-- Settles O29: the execute action of StoreA after the fetch, which leaves A and memory alone. -/
theorem cycleOfStoreA : Obligations.CycleOfStoreA := by
  intro m hm s k h
  rw [h.cycleWith hm rfl]
  exact storeAWritesOneWord k (s.afterTwoWords m .storeA)

/-- Settles O30: the source field names the same value after the fetch. -/
theorem cycleOfMov : Obligations.CycleOfMov := by
  intro m hm s k x h hsrc
  obtain ⟨toA, toB⟩ := movCopiesOneRegister _ _ x (hsrc.afterTwoWords m .mov)
  rw [h.cycleWith hm rfl, instrOf]
  constructor
  · intro hdest
    rw [hdest]
    exact toA
  · intro hdest
    rw [hdest]
    exact toB

end Sys2Proof.Machine

/-! Proofs: Add and Sub, their result and flags, their execute actions and their whole cycles (`44_arithmetic.md`). -/

namespace Sys2Proof.Machine

/-! ## The flags in the words of R135 to R137 -/

/-- The top bit of a word is set exactly when its signed view is negative. -/
theorem negativeFlag_eq_decide (r : Word) : negativeFlag r = decide (sgn r < 0) := by
  rw [sgn_eq_toInt, ← BitVec.msb_eq_toInt, BitVec.msb_eq_getLsbD_last]
  rfl

/-- V of an addition is the overflow of the signed sum of its operands (R136). -/
theorem overflowFlag_add (a b2 : Word) :
    overflowFlag a b2 (a + b2) = decide (sgn a + sgn b2 < -8 ∨ 7 < sgn a + sgn b2) := by
  have hsigns : overflowFlag a b2 (a + b2) = a.saddOverflow b2 := by
    rw [BitVec.saddOverflow_eq, BitVec.msb_eq_getLsbD_last, BitVec.msb_eq_getLsbD_last, BitVec.msb_eq_getLsbD_last]
    rfl
  rw [hsigns, BitVec.saddOverflow, ← Bool.decide_or, decide_eq_decide, sgn_eq_toInt, sgn_eq_toInt]
  omega

/-- The negated subtrahend has the opposite signed value, unless it is 8, which is its own negation. -/
theorem sgn_neg_of_ne_eight {y : Word} (hy : y ≠ 8) : sgn (-y) = -sgn y := by
  rw [sgn_eq_toInt, sgn_eq_toInt, BitVec.toInt_neg_of_ne_intMin hy]

/-- The top bit, read from the signed and from the unsigned view (R101, R102). -/
theorem sgn_neg_iff_eight_le_uns (x : Word) : sgn x < 0 ↔ 8 ≤ uns x := by
  rw [sgn_eq_toInt]
  exact decide_eq_decide.mp (BitVec.msb_eq_toInt.symm.trans (BitVec.msb_eq_decide x))

/-- V of a subtraction under the addend reading: the operands of the addition are the minuend and the negated
subtrahend (R136, D14). -/
theorem overflowFlag_sub (x y : Word) : overflowFlag x (-y) (x - y) = (flagsOfDifference x y).v := by
  rw [BitVec.sub_eq_add_neg, overflowFlag_add, flagsOfDifference]
  by_cases hy : y = 8
  · subst hy
    have hneg : sgn (-8) = -8 := rfl
    have hlow := neg_eight_le_sgn x
    have hhigh := sgn_le_seven x
    rw [if_pos rfl, hneg, decide_eq_decide, ← sgn_neg_iff_eight_le_uns]
    omega
  · rw [if_neg hy, sgn_neg_of_ne_eight hy, ← Int.sub_eq_add_neg]

theorem aluFlags_add (x y : Word) : aluFlags .add x y = flagsOfSum x y := by
  rw [aluFlags, aluResult_add, negativeFlag_eq_decide, secondAddend, overflowFlag_add]
  rfl

theorem aluFlags_sub (x y : Word) : aluFlags .sub x y = flagsOfDifference x y := by
  rw [aluFlags, aluResult_sub, negativeFlag_eq_decide, secondAddend, nibNeg_eq, overflowFlag_sub]
  rfl

/-! ## The execute actions (R180, R181) -/

/-- On two named registers the ALU's result goes to A and `res`, its flags to the flags, and nothing else changes. -/
theorem State.withRegPair_aluToA {s : State} {f1 f2 : RegOperand} {x y : Word} (h1 : s.Names f1 x)
    (h2 : s.Names f2 y) (op : AluOp) :
    s.withRegPair f1 f2 (s.aluToA op) =
      { s with a := aluResult op x y, res := aluResult op x y, flags := aluFlags op x y } := by
  obtain ⟨r1, hr1, rfl⟩ := h1.exists_reg
  obtain ⟨r2, hr2, rfl⟩ := h2.exists_reg
  rw [State.withRegPair_of_named hr1 hr2, State.aluToA_eq]

/-- Settles O22: the ALU's sum, and its flags by the signed overflow of the sum. -/
theorem addWritesSumAndFlags : Obligations.AddWritesSumAndFlags := by
  intro s f1 f2 x y h1 h2
  rw [exec_add, State.withRegPair_aluToA h1 h2, aluResult_add, aluFlags_add]

/-- Settles O23: the ALU's difference, and its flags by the signed overflow of the sum of the addends. -/
theorem subWritesDifferenceAndFlags : Obligations.SubWritesDifferenceAndFlags := by
  intro s f1 f2 x y h1 h2
  rw [exec_sub, State.withRegPair_aluToA h1 h2, aluResult_sub, aluFlags_sub]

/-! ## The whole cycles (R180, R181) -/

/-- Settles O31: the execute action after the fetch, where both fields name the values they named before. -/
theorem cycleOfAddAndSub : Obligations.CycleOfAddAndSub := by
  intro m hm s k x y h1 h2
  constructor
  · intro h
    rw [h.cycleWith hm rfl]
    exact addWritesSumAndFlags _ _ _ x y (h1.afterTwoWords m .add) (h2.afterTwoWords m .add)
  · intro h
    rw [h.cycleWith hm rfl]
    exact subWritesDifferenceAndFlags _ _ _ x y (h1.afterTwoWords m .sub) (h2.afterTwoWords m .sub)

end Sys2Proof.Machine

/-! Proofs: Jump, JumpZ, JumpNZ and Halt, their execute actions and their whole cycles (`45_control.md`). -/

namespace Sys2Proof.Machine

/-! ## The execute actions (R190 to R193) -/

/-- A jump on Z writes the target or leaves the `pc` it found (R191). -/
theorem exec_jumpZ_eq_setPc (k : Word) (s : State) :
    exec (.jumpZ k) s = .next (s.setPc (if s.flags.z then k else s.pc)) := by
  rw [exec_jumpZ, apply_ite s.setPc]
  rfl

/-- A jump on not Z leaves the `pc` it found or writes the target (R192). -/
theorem exec_jumpNZ_eq_setPc (k : Word) (s : State) :
    exec (.jumpNZ k) s = .next (s.setPc (if s.flags.z then s.pc else k)) := by
  rw [exec_jumpNZ, apply_ite s.setPc]
  rfl

/-- Settles O25: a jump sets `pc`, a jump not taken to the value it has. -/
theorem jumpsWritePcOnly : Obligations.JumpsWritePcOnly := by
  intro k s
  refine ⟨exec_jump s k, exec_jumpZ_eq_setPc k s, ?_⟩
  simp only [← Bool.not_eq_true, ite_not]
  exact exec_jumpNZ_eq_setPc k s

/-- Settles O26. -/
theorem haltSetsHaltedOnly : Obligations.HaltSetsHaltedOnly := exec_halt

/-! ## The whole cycles (R190 to R193) -/

/-- Settles O32: the execute action after the fetch, which left Z alone and `pc` two further. -/
theorem cycleOfJumps : Obligations.CycleOfJumps := by
  intro m hm s k
  refine ⟨fun h => ?_, fun h => ?_, fun h => ?_⟩
  · rw [h.cycleWith hm rfl]
    exact exec_jump (s.afterTwoWords m .jump) k
  · rw [h.cycleWith hm rfl]
    exact exec_jumpZ_eq_setPc k (s.afterTwoWords m .jumpZ)
  · rw [h.cycleWith hm rfl]
    exact exec_jumpNZ_eq_setPc k (s.afterTwoWords m .jumpNZ)

/-- Settles O33: the execute action of Halt after the fetch of its one word. -/
theorem cycleOfHalt : Obligations.CycleOfHalt := by
  intro m hm s h
  rw [h.cycleWith hm rfl]
  exact haltSetsHaltedOnly _

end Sys2Proof.Machine

/-! Proofs: the host's operations and program loading (`46_host_interface.md`). -/

namespace Sys2Proof.Machine

/-! ## What a host operation can do (R204 to R206, R209) -/

/-- Beside construction and a cycle, the host changes nothing or stores one word (R209). -/
theorem hostNext_cases {m : EncodingMap} {move : HostMove} {s t : State} (hconstruct : move ≠ .construct)
    (hcycle : move ≠ .cycle) (h : hostNext m move s = .next t) :
    t = s ∨ ∃ addr v : Word, t = s.store addr v := by
  cases move with
  | construct => exact absurd rfl hconstruct
  | cycle => exact absurd rfl hcycle
  | store value addr => cases h; exact .inr ⟨nib addr, nib value, rfl⟩
  | viewA | viewB | viewFlags | viewHalted | load | capacity => cases h; exact .inl rfl

/-- Settles O53: a view answers the state it finds, and a store, the one other operation, writes memory only. -/
theorem hostViewsReadOnly : Obligations.HostViewsReadOnly := by
  intro m s
  refine ⟨rfl, rfl, rfl, rfl, rfl, rfl, rfl, rfl, ?_⟩
  intro move t hconstruct hcycle h
  obtain rfl | ⟨addr, v, rfl⟩ := hostNext_cases hconstruct hcycle h
  · exact ⟨rfl, rfl, rfl⟩
  · exact ⟨s.store_a addr v, s.store_b addr v, s.store_flags addr v⟩

/-- A halted machine stays halted: its cycle changes nothing (D7), and no other operation writes the halt flag. -/
theorem hostNext_keeps_halted {m : EncodingMap} {move : HostMove} {s t : State} (hconstruct : move ≠ .construct)
    (h : hostNext m move s = .next t) (hs : s.halted = true) : t.halted = true := by
  by_cases hcycle : move = .cycle
  · subst hcycle
    have hstays : hostNext m .cycle s = .next s := cycleWith_halted m hs
    rw [hstays] at h
    cases h
    exact hs
  · obtain rfl | ⟨addr, v, rfl⟩ := hostNext_cases hconstruct hcycle h
    · exact hs
    · rw [State.store_halted, hs]

/-- Settles O54: the port's load and store are the machine's, at the nibble of the integer it is given (R206). -/
theorem hostReachesOnlyMemory : Obligations.HostReachesOnlyMemory := by
  intro m s
  refine ⟨fun addr => ⟨rfl, rfl⟩, fun value addr => ?_, fun move t => hostNext_keeps_halted⟩
  exact ⟨s.store (nib addr) (nib value), rfl, rfl, s.load_store_same (nib addr) (nib value),
    fun _ hother => s.load_store_other hother (nib value)⟩

/-! ## Program loading (R207) -/

@[simp] theorem State.loadProgram_nil (s : State) (addr : Word) : s.loadProgram addr [] = s := rfl

@[simp] theorem State.loadProgram_cons (s : State) (addr w : Word) (ws : List Word) :
    s.loadProgram addr (w :: ws) = (s.store addr w).loadProgram (addr + 1) ws := by
  rw [State.loadProgram, nibAdd_eq]

/-- Word `i` of a program that begins at the next address is word `i + 1` of one that begins here. -/
theorem add_one_add_ofNat (addr : Word) (i : Nat) :
    addr + 1 + BitVec.ofNat 4 i = addr + BitVec.ofNat 4 (i + 1) := by
  rw [BitVec.add_assoc, BitVec.add_comm 1, BitVec.ofNat_add]
  rfl

/-- Fewer than 16 steps on from an address do not come back to it (the wrap at 15: D4). -/
theorem add_ofNat_succ_ne (addr : Word) {i : Nat} (h : i + 1 < 16) : addr + BitVec.ofNat 4 (i + 1) ≠ addr := by
  bv_omega

/-- Loading a program leaves every address it does not cover alone, however long the program is. -/
theorem State.load_loadProgram_other (s : State) {addr other : Word} {ws : List Word}
    (h : ∀ i : Nat, i < ws.length → other ≠ addr + BitVec.ofNat 4 i) :
    (s.loadProgram addr ws).load other = s.load other := by
  induction ws generalizing s addr with
  | nil => rfl
  | cons w ws ih =>
    have hfirst : other ≠ addr := by simpa using h 0 (Nat.succ_pos _)
    have hrest : ∀ i : Nat, i < ws.length → other ≠ addr + 1 + BitVec.ofNat 4 i := fun i hi => by
      rw [add_one_add_ofNat]
      exact h (i + 1) (Nat.succ_lt_succ hi)
    rw [State.loadProgram_cons, ih _ hrest, State.load_store_other s hfirst]

/-- A program of at most 16 words does not store twice at one address, so each of its words stays. -/
theorem State.load_loadProgram (s : State) (addr : Word) {ws : List Word} (hlength : ws.length ≤ 16) {i : Nat}
    {w : Word} (h : ws[i]? = some w) : (s.loadProgram addr ws).load (addr + BitVec.ofNat 4 i) = w := by
  induction ws generalizing s addr i with
  | nil => simp at h
  | cons v ws ih =>
    rw [List.length_cons] at hlength
    rw [State.loadProgram_cons]
    cases i with
    | zero =>
      obtain rfl : v = w := by simpa using h
      have hkept : ∀ j : Nat, j < ws.length → addr ≠ addr + 1 + BitVec.ofNat 4 j := fun j hj => by
        rw [add_one_add_ofNat]
        exact (add_ofNat_succ_ne addr (by omega)).symm
      rw [BitVec.add_zero, State.load_loadProgram_other _ hkept, State.load_store_same]
    | succ i =>
      rw [List.getElem?_cons_succ] at h
      rw [← add_one_add_ofNat]
      exact ih _ _ (by omega) h

/-- Loading a program writes memory only. -/
theorem State.loadProgram_frame (s : State) (addr : Word) (ws : List Word) :
    s.loadProgram addr ws = { s with mem := (s.loadProgram addr ws).mem } := by
  induction ws generalizing s addr with
  | nil => rfl
  | cons w ws ih =>
    rw [State.loadProgram_cons]
    exact ih (s.store addr w) (addr + 1)

/-- Settles O55. -/
theorem programLoading : Obligations.ProgramLoading :=
  fun s addr ws hlength =>
    ⟨fun _ _ => s.load_loadProgram addr hlength, fun _ => s.load_loadProgram_other, s.loadProgram_frame addr ws⟩

end Sys2Proof.Machine

/-! Proofs: a memory in canonical form is its 16 words, and the packed array of eight bytes it refines (`20_memory.md`
R42 to R46; canonical form: log 17). -/

namespace Sys2Proof.Machine

/-! ## What a canonical memory reads as -/

section CanonicalForm

variable {lo k : Nat} {m : Memory}

/-- The units below the first one a canonical list may hold are not listed. -/
theorem Memory.readUnit_of_lt (h : Memory.wfFrom lo m = true) (hk : k < lo) :
    m.readUnit k = Memory.unlisted := by
  induction m generalizing lo with
  | nil => rfl
  | cons c rest ih =>
    obtain ⟨hlo, -, -, hrest⟩ := Memory.wfFrom_cons.mp h
    rw [Memory.readUnit_cons, if_neg (by omega)]
    exact ih hrest (by omega)

/-- A canonical list holds no unit past the last (R43). -/
theorem Memory.readUnit_of_memUnits_le (h : Memory.wfFrom lo m = true) (hk : Config.memUnits ≤ k) :
    m.readUnit k = Memory.unlisted := by
  induction m generalizing lo with
  | nil => rfl
  | cons c rest ih =>
    obtain ⟨-, hlt, -, hrest⟩ := Memory.wfFrom_cons.mp h
    rw [Memory.readUnit_cons, if_neg (by omega)]
    exact ih hrest

end CanonicalForm

/-- A unit that reads as more than an unlisted one is at or after the first cell of a canonical list. -/
theorem Memory.head_le_of_readUnit_ne {lo k : Nat} {c : Host.Cell} {m : Memory}
    (h : Memory.wfFrom lo (c :: m) = true) (hk : Memory.readUnit (c :: m) k ≠ Memory.unlisted) : c.1 ≤ k := by
  obtain ⟨-, -, -, hrest⟩ := Memory.wfFrom_cons.mp h
  by_contra hbefore
  rw [Memory.readUnit_cons, if_neg (by omega)] at hk
  exact hk (Memory.readUnit_of_lt hrest (by omega))

/-- The first cell of a canonical list is read. -/
theorem Memory.readUnit_head_ne {lo : Nat} {c : Host.Cell} {m : Memory} (h : Memory.wfFrom lo (c :: m) = true) :
    Memory.readUnit (c :: m) c.1 ≠ Memory.unlisted := by
  obtain ⟨-, -, hlisted, -⟩ := Memory.wfFrom_cons.mp h
  rwa [Memory.readUnit_cons, if_pos rfl]

/-- Canonical lists that read alike are equal: each first cell is the first unit that reads as more than an unlisted
one, and the lists after it read alike again. -/
theorem Memory.eq_of_readUnit_eq {lo : Nat} {m1 m2 : Memory} (h1 : Memory.wfFrom lo m1 = true)
    (h2 : Memory.wfFrom lo m2 = true) (heq : ∀ k, m1.readUnit k = m2.readUnit k) : m1 = m2 := by
  induction m1 generalizing lo m2 with
  | nil =>
    cases m2 with
    | nil => rfl
    | cons d rest2 => exact absurd (heq d.1).symm (Memory.readUnit_head_ne h2)
  | cons c rest1 ih =>
    cases m2 with
    | nil => exact absurd (heq c.1) (Memory.readUnit_head_ne h1)
    | cons d rest2 =>
      have hdc : d.1 ≤ c.1 := Memory.head_le_of_readUnit_ne h2 (heq c.1 ▸ Memory.readUnit_head_ne h1)
      have hcd : c.1 ≤ d.1 := Memory.head_le_of_readUnit_ne h1 (heq d.1 ▸ Memory.readUnit_head_ne h2)
      have hunit : c.1 = d.1 := Nat.le_antisymm hcd hdc
      have hbyte : c.2 = d.2 := by simpa [Memory.readUnit_cons, hunit] using heq d.1
      obtain rfl : c = d := Prod.ext hunit hbyte
      obtain ⟨-, -, -, hrest1⟩ := Memory.wfFrom_cons.mp h1
      obtain ⟨-, -, -, hrest2⟩ := Memory.wfFrom_cons.mp h2
      have hrest : ∀ k, Memory.readUnit rest1 k = Memory.readUnit rest2 k := by
        intro k
        by_cases hk : c.1 = k
        · have hbefore : k < c.1 + 1 := by omega
          rw [Memory.readUnit_of_lt hrest1 hbefore, Memory.readUnit_of_lt hrest2 hbefore]
        · simpa [Memory.readUnit_cons, hk] using heq k
      rw [ih hrest1 hrest2 hrest]

/-- A unit is its two words, the even address's in the high half (R43, D10). -/
theorem Memory.readUnit_eq_append (m : Memory) (k : Fin 8) :
    m.readUnit k = m.readWord (BitVec.ofNat 4 (2 * k.val)) ++ m.readWord (BitVec.ofNat 4 (2 * k.val + 1)) := by
  simp [Memory.readWord, append_halves]

/-- Settles O8: the words give the eight units, and the other units of a canonical memory are not listed. -/
theorem canonicalMemoriesEqual : Obligations.CanonicalMemoriesEqual := by
  intro m1 m2 h1 h2 hwords
  refine Memory.eq_of_readUnit_eq h1 h2 fun k => ?_
  by_cases hk : k < Config.memUnits
  · rw [m1.readUnit_eq_append ⟨k, hk⟩, m2.readUnit_eq_append ⟨k, hk⟩, hwords, hwords]
  · have hpast : Config.memUnits ≤ k := Nat.le_of_not_lt hk
    rw [Memory.readUnit_of_memUnits_le h1 hpast, Memory.readUnit_of_memUnits_le h2 hpast]

/-! ## The packed array -/

section PackedArray

variable (m : Memory)

@[simp] theorem Memory.length_image : m.image.length = Config.memUnits := by simp [Memory.image]

theorem Memory.getElem?_image {k : Nat} (hk : k < Config.memUnits) : m.image[k]? = some (m.readUnit k) := by
  simp [Memory.image, hk]

/-- Writing a unit of the list is setting the byte of the array. -/
theorem Memory.image_writeUnit (k : Nat) (u : Byte) : (m.writeUnit k u).image = m.image.set k u := by
  refine List.ext_getElem (by simp) fun j _ _ => ?_
  simp [Memory.image, Memory.readUnit_writeUnit, List.getElem_set, eq_comm]

theorem MemComponent.load_ofMemory (addr : Word) : (MemComponent.ofMemory m).load addr = some (m.readWord addr) := by
  rw [MemComponent.load, MemComponent.ofMemory, m.getElem?_image (unitOf_lt addr)]
  rfl

theorem MemComponent.store_ofMemory (addr v : Word) :
    (MemComponent.ofMemory m).store v addr = some (MemComponent.ofMemory (m.writeWord addr v)) := by
  rw [MemComponent.store, MemComponent.ofMemory, m.getElem?_image (unitOf_lt addr), Option.map_some,
    ← Memory.image_writeUnit]
  rfl

theorem MemComponent.capacity_ofMemory : (MemComponent.ofMemory m).capacity = 16 := by
  rw [MemComponent.capacity, MemComponent.ofMemory, Memory.length_image]
  rfl

end PackedArray

/-- Settles O11. -/
theorem memoryRefinesPackedArray : Obligations.MemoryRefinesPackedArray :=
  ⟨rfl, fun m addr v => ⟨MemComponent.capacity_ofMemory m, MemComponent.load_ofMemory m addr,
    MemComponent.store_ofMemory m addr v⟩⟩

end Sys2Proof.Machine

/-! Proofs: reset, the next `pc` of a cycle, reserved and unrecognised instructions, and the diagnostic events
(`60_exceptions.md` R223, R227, R229). -/

namespace Sys2Proof.Machine

/-! ## Reset and the halted state -/

/-- Settles O12. -/
theorem resetValues : Obligations.ResetValues := by
  obtain ⟨hwords, -⟩ := freshMemoryIsZero
  exact ⟨rfl, rfl, rfl, rfl, rfl, rfl, rfl, rfl, rfl, hwords⟩

/-- Settles O17. -/
theorem haltedCycleChangesNothing : Obligations.HaltedCycleChangesNothing := fun _ => cycleWith_halted specEncoding

/-- Settles O45: the word at address 0 after reset is the opcode word of Halt. -/
theorem emptyMemoryHaltsAtOnce : Obligations.EmptyMemoryHaltsAtOnce := by
  have hop : specEncoding.opcode (State.reset.load State.reset.pc) = .halt := rfl
  exact cycleWith_halt rfl hop

/-! ## The program counter (R227) -/

/-- Only a taken jump writes `pc`: its operand word (`45_control.md` R190 to R192). -/
theorem exec_instrOf_pc {m : EncodingMap} {op : Opcode} {k : Word} {s t : State}
    (h : exec (instrOf m op k) s = .next t) :
    t.pc =
      if op = .jump ∨ (op = .jumpZ ∧ s.flags.z = true) ∨ (op = .jumpNZ ∧ s.flags.z = false) then k else s.pc := by
  cases op with
  | jump => cases h; rfl
  | jumpZ =>
    rw [instrOf, exec_jumpZ_eq_setPc] at h
    cases h
    simp
  | jumpNZ =>
    rw [instrOf, exec_jumpNZ_eq_setPc] at h
    cases h
    cases s.flags.z <;> simp
  | mov =>
    cases h
    exact State.withRegPair_induction (·.pc = s.pc) rfl fun _ d _ => State.writeReg_pc s _ d
  | add | sub => cases h; exact State.withRegPair_induction (·.pc = s.pc) rfl fun _ _ _ => rfl
  | halt | loadA | loadAI | loadB | storeA | unrecognisedB | unrecognisedC | unrecognisedD | unrecognisedE
    | unrecognisedF => cases h; rfl

/-- Settles O39: the fetch moves `pc` past the words of the instruction, and a jump, which has two, may then write it. -/
theorem controlFlow : Obligations.ControlFlow := by
  intro m s t hrunning h
  refine ⟨cycleWith_is hrunning h, ?_⟩
  rw [cycleWith_running m hrunning, State.fetchInstr_fst] at h
  rw [exec_instrOf_pc h, State.fetchInstr_snd]
  cases m.opcode (s.load s.pc) with
  | jumpZ | jumpNZ => simp [Opcode.hasOperand]
  | halt | unrecognisedB | unrecognisedC | unrecognisedD | unrecognisedE | unrecognisedF => rfl
  | loadA | loadAI | loadB | storeA | mov | add | sub | jump => rfl

/-! ## Reserved indices and unrecognised opcodes (D3, D5) -/

theorem registerOf_eq_none_iff {f : RegOperand} : registerOf f = none ↔ f.named = false := by
  cases f <;> decide

theorem State.withRegPair_of_reserved (s : State) {f1 f2 : RegOperand} (h : f1.named = false ∨ f2.named = false)
    (act : Reg → Reg → State) : s.withRegPair f1 f2 act = s := by
  rw [← registerOf_eq_none_iff, ← registerOf_eq_none_iff] at h
  obtain ⟨r1, r2, h1, h2, -⟩ | ⟨-, hskip⟩ := s.withRegPair_cases f1 f2 act
  · simp [h1, h2] at h
  · exact hskip

/-- Settles O24: the three are a register pair's action, which a reserved index skips. -/
theorem reservedIndexDoesNothing : Obligations.ReservedIndexDoesNothing := by
  intro s f1 f2 h
  simp [s.withRegPair_of_reserved h]

/-- Settles O27. -/
theorem unrecognisedOpcodesDoNothing : Obligations.UnrecognisedOpcodesDoNothing := fun s =>
  ⟨exec_unrecognisedB s, exec_unrecognisedC s, exec_unrecognisedD s, exec_unrecognisedE s, exec_unrecognisedF s⟩

/-! ## Diagnostic events (R223, R229) -/

section Events

variable {m : EncodingMap} {s : State} {e : DiagEvent}

theorem diagOfPair_eq_some_iff {f1 f2 : RegOperand} :
    diagOfPair f1 f2 = some e ↔ (f1.named = false ∨ f2.named = false) ∧ e = .reservedRegister := by
  unfold diagOfPair
  cases f1.named <;> cases f2.named <;> simp [eq_comm]

/-- An instruction that emits an event does nothing else. -/
theorem exec_of_diagOf_eq_some {i : Instr} (h : diagOf i = some e) (s : State) : exec i s = .next s := by
  cases i with
  | mov f1 f2 | add f1 f2 | sub f1 f2 =>
    obtain ⟨hreserved, -⟩ := diagOfPair_eq_some_iff.mp h
    simp [s.withRegPair_of_reserved hreserved]
  | unrecognisedB | unrecognisedC | unrecognisedD | unrecognisedE | unrecognisedF => rfl
  | halt | loadA | loadAI | loadB | storeA | jump | jumpZ | jumpNZ => cases h

/-- The event of the unrecognised opcodes is theirs alone. -/
theorem diagOf_eq_unknownOpcode_iff {i : Instr} : diagOf i = some .unknownOpcode ↔ UnrecognisedOpcode i.opcode := by
  cases i with
  | mov | add | sub => simp [diagOf, diagOfPair_eq_some_iff, UnrecognisedOpcode, Instr.opcode]
  | unrecognisedB | unrecognisedC | unrecognisedD | unrecognisedE | unrecognisedF =>
    simp [diagOf, UnrecognisedOpcode, Instr.opcode]
  | halt | loadA | loadAI | loadB | storeA | jump | jumpZ | jumpNZ =>
    simp [diagOf, UnrecognisedOpcode, Instr.opcode]

/-- The event of a reserved index is that of Mov, Add and Sub alone, with such an index. -/
theorem diagOf_instrOf_eq_reservedRegister_iff {op : Opcode} {k : Word} :
    diagOf (instrOf m op k) = some .reservedRegister ↔
      PairOpcode op ∧ ((m.regOperand (unpackFields k).1).named = false ∨
        (m.regOperand (unpackFields k).2).named = false) := by
  cases op with
  | mov | add | sub => simp [instrOf, diagOf, diagOfPair_eq_some_iff, PairOpcode]
  | halt | loadA | loadAI | loadB | storeA | jump | jumpZ | jumpNZ | unrecognisedB | unrecognisedC | unrecognisedD
    | unrecognisedE | unrecognisedF => simp [instrOf, diagOf, PairOpcode]

theorem PairOpcode.hasOperand {op : Opcode} (h : PairOpcode op) : op.hasOperand = true := by
  simp only [PairOpcode, List.mem_cons, List.not_mem_nil, or_false] at h
  obtain rfl | rfl | rfl := h <;> rfl

/-- Only a running machine emits an event, that of the instruction it fetches (R151). -/
theorem cycleDiag_eq_some_iff : cycleDiag m s = some e ↔ s.halted = false ∧ diagOf (s.fetchInstr m).1 = some e := by
  simp [cycleDiag]

theorem cycleDiag_eq_unknownOpcode_iff :
    cycleDiag m s = some .unknownOpcode ↔ s.halted = false ∧ UnrecognisedOpcode (m.opcode (s.load s.pc)) := by
  rw [cycleDiag_eq_some_iff, diagOf_eq_unknownOpcode_iff, State.fetchInstr_opcode]

theorem cycleDiag_eq_reservedRegister_iff :
    cycleDiag m s = some .reservedRegister ↔
      s.halted = false ∧ PairOpcode (m.opcode (s.load s.pc)) ∧
        ((m.regOperand (unpackFields (s.load (s.pc + 1))).1).named = false ∨
          (m.regOperand (unpackFields (s.load (s.pc + 1))).2).named = false) := by
  rw [cycleDiag_eq_some_iff, State.fetchInstr_fst, diagOf_instrOf_eq_reservedRegister_iff]
  refine and_congr_right fun _ => and_congr_right fun hpair => ?_
  rw [if_pos hpair.hasOperand]

/-- A cycle that emits an event is the fetch alone. -/
theorem cycleWith_of_cycleDiag_eq_some (h : cycleDiag m s = some e) : cycleWith m s = .next (s.fetchInstr m).2 := by
  obtain ⟨hrunning, hdiag⟩ := cycleDiag_eq_some_iff.mp h
  rw [cycleWith_running m hrunning, exec_of_diagOf_eq_some hdiag]

end Events

/-- Settles O56: the two events by their instructions, and the fetch of one word or of two. -/
theorem diagnosticCycles : Obligations.DiagnosticCycles := by
  intro m s
  refine ⟨cycleDiag_eq_unknownOpcode_iff, cycleDiag_eq_reservedRegister_iff, fun h => ?_, fun h => ?_⟩
  · obtain ⟨-, hop⟩ := cycleDiag_eq_unknownOpcode_iff.mp h
    have hone : (m.opcode (s.load s.pc)).hasOperand = false := Opcode.hasOperand_eq_false_iff.mpr (.inr hop)
    rw [cycleWith_of_cycleDiag_eq_some h, State.fetchInstr_snd, hone]
    rfl
  · obtain ⟨-, hop, -⟩ := cycleDiag_eq_reservedRegister_iff.mp h
    rw [cycleWith_of_cycleDiag_eq_some h, State.fetchInstr_snd, hop.hasOperand]
    rfl

/-! ## The signals (`46_host_interface.md` R208) -/

section Signals

variable {p : PinsIn} {s : State}

theorem pinsDiag_of_rst (h : p.rst = true) : pinsDiag p s = none := by simp [pinsDiag, h]

theorem pinsDiag_of_step (hrst : p.rst = false) (hstep : p.step = true) :
    pinsDiag p s = cycleDiag specEncoding s := by
  simp [pinsDiag, hrst, hstep]

theorem pinsOut_diagUnknownOpcode_iff :
    (pinsOut p s).diagUnknownOpcode = true ↔ pinsDiag p s = some .unknownOpcode := beq_iff_eq

theorem pinsOut_diagReservedReg_iff :
    (pinsOut p s).diagReservedReg = true ↔ pinsDiag p s = some .reservedRegister := beq_iff_eq

end Signals

/-- Settles O57. -/
theorem signalRendering : Obligations.SignalRendering := by
  intro p s
  refine ⟨fun hrst => ?_, fun hrst hstep => ?_, fun hrst hstep hwe => ?_, fun hrst hstep hwe => ?_,
    rfl, rfl, rfl, rfl, rfl, rfl, rfl⟩
  · simp only [← Bool.not_eq_true, pinsOut_diagUnknownOpcode_iff, pinsOut_diagReservedReg_iff, pinsDiag_of_rst hrst]
    simp [pinsNext, hrst]
  · rw [pinsOut_diagUnknownOpcode_iff, pinsOut_diagReservedReg_iff, pinsDiag_of_step hrst hstep]
    simp [pinsNext, hrst, hstep]
  · simp [pinsNext, hrst, hstep, hwe]
  · simp [pinsNext, hrst, hstep, hwe]

end Sys2Proof.Machine

/-! Proofs: division, shifts and the bitwise operators of the nibble unit (`40_nibble_unit.md` R107 to R114), and the
unknown select of the ALU (`41_alu_flags.md` R138). -/

namespace Sys2Proof.Machine

section NibbleOperators

variable (a b : Word)

/-- A nibble constructed from a natural number up to 15 reads as that number. -/
theorem uns_nib_of_le {n : Nat} (h : n ≤ 15) : uns (nib n) = n := by
  rw [uns_nib_natCast, Nat.mod_eq_of_lt (Nat.lt_succ_of_le h)]

/-! ## Quotient and remainder (R107, R108) -/

theorem nibDiv_zero : nibDiv a 0 = 15 := rfl

theorem nibMod_zero : nibMod a 0 = a := rfl

theorem uns_nibDiv {b : Word} (hb : uns b ≠ 0) : uns (nibDiv a b) = uns a / uns b := by
  rw [nibDiv, if_neg hb, uns_nib_of_le ((Nat.div_le_self _ _).trans (uns_le_fifteen a))]

theorem uns_nibMod {b : Word} (hb : uns b ≠ 0) : uns (nibMod a b) = uns a % uns b := by
  rw [nibMod, if_neg hb, uns_nib_of_le ((Nat.mod_le _ _).trans (uns_le_fifteen a))]

/-- The law that joins quotient and remainder holds for a zero divisor too, whose remainder is the dividend (D11). -/
theorem nibAdd_nibMul_nibDiv_nibMod : nibAdd (nibMul (nibDiv a b) b) (nibMod a b) = a := by
  have hlt : uns a < 16 := Nat.lt_succ_of_le (uns_le_fifteen a)
  refine BitVec.eq_of_toNat_eq (?_ : uns _ = uns a)
  rw [uns_nibAdd, uns_nibMul]
  by_cases hb : uns b = 0
  · obtain rfl : b = 0 := BitVec.eq_of_toNat_eq hb
    rw [nibMod_zero, hb, Nat.mul_zero, Nat.zero_mod, Nat.zero_add, Nat.mod_eq_of_lt hlt]
  · rw [uns_nibDiv a hb, uns_nibMod a hb, Nat.mod_add_mod, Nat.div_add_mod', Nat.mod_eq_of_lt hlt]

/-! ## Shifts (R109, R110) -/

theorem uns_nibShl : uns (nibShl a b) = uns a * 2 ^ uns b % 16 := by
  rw [nibShl, uns_nib_natCast, Nat.shiftLeft_eq]

theorem uns_nibShr : uns (nibShr a b) = uns a / 2 ^ uns b := by
  rw [nibShr, Nat.shiftRight_eq_div_pow, uns_nib_of_le ((Nat.div_le_self _ _).trans (uns_le_fifteen a))]

/-! ## The bitwise operators (R111 to R114) -/

theorem nibAnd_eq : nibAnd a b = a &&& b := BitVec.eq_of_toNat_eq <| by
  rw [BitVec.toNat_and]
  exact uns_nib_of_le (Nat.le_of_lt_succ <| Nat.and_lt_two_pow (n := 4) _ b.isLt)

theorem nibOr_eq : nibOr a b = a ||| b := BitVec.eq_of_toNat_eq <| by
  rw [BitVec.toNat_or]
  exact uns_nib_of_le (Nat.le_of_lt_succ <| Nat.or_lt_two_pow (n := 4) a.isLt b.isLt)

theorem nibXor_eq : nibXor a b = a ^^^ b := BitVec.eq_of_toNat_eq <| by
  rw [BitVec.toNat_xor]
  exact uns_nib_of_le (Nat.le_of_lt_succ <| Nat.xor_lt_two_pow (n := 4) a.isLt b.isLt)

theorem uns_nibNot : uns (nibNot a) = 15 - uns a := by
  rw [nibNot_eq, uns, BitVec.toNat_not]
  rfl

theorem uns_nibNeg : uns (nibNeg a) = (16 - uns a) % 16 := by
  rw [nibNeg_eq, uns, BitVec.toNat_neg]
  rfl

end NibbleOperators

/-- Settles O51. -/
theorem nibbleDivMod : Obligations.NibbleDivMod := fun a b =>
  ⟨fun hb => ⟨uns_nibDiv a hb, uns_nibMod a hb⟩, nibDiv_zero a, nibMod_zero a, nibAdd_nibMul_nibDiv_nibMod a b⟩

/-- Settles O52: the bitwise operators are those of bit vectors. -/
theorem nibbleShiftsAndBitwise : Obligations.NibbleShiftsAndBitwise := by
  intro a b
  refine ⟨uns_nibShl a b, uns_nibShr a b, fun i => ?_, uns_nibNot a, uns_nibNeg a⟩
  rw [nibAnd_eq, nibOr_eq, nibXor_eq, nibNot_eq]
  exact ⟨BitVec.getLsbD_and, BitVec.getLsbD_or, BitVec.getLsbD_xor, by simp⟩

/-- Settles O48. -/
theorem unknownAluSelectDoesNothing : Obligations.UnknownAluSelectDoesNothing :=
  ⟨fun _ _ _ => rfl, rfl, fun _ => rfl⟩

end Sys2Proof.Machine
